-- ==== Sys2Proof/Word.lean ====
section
/-! DEFINITION. The word and its two numeric views (00_scope.md R9, R10). A word is a bit vector; `uval` and
`sval` are the only two ways a rule reads one as a number. Sums, products, differences and shifts of words are
the core `BitVec` operations, which wrap modulo `2^W` and shift in zeros exactly as R10 says. -/

namespace Sys2Proof

/-- A word of `W` bits (R9): bit 0 is the least significant. -/
abbrev Word (W : Nat) := BitVec W

/-- `u(v)`, the unsigned view (R9). -/
abbrev uval {W : Nat} (x : Word W) : Nat := x.toNat

/-- `s(v)`, the two's-complement view (R9). -/
abbrev sval {W : Nat} (x : Word W) : Int := x.toInt

/-- `word(k)`: the word with `u = k mod 2^W` (R10). -/
abbrev word (W k : Nat) : Word W := BitVec.ofNat W k

/-- A binary32 pattern, carried in the low 32 bits of an operand or a result (R58, R106). -/
abbrev Bits32 := BitVec 32

end Sys2Proof
end

