-- ==== Sys2Proof/Config.lean ====
section
/-! DEFINITION. What is fixed when an instance is built, and the values the spec leaves open.
`Params` is the constant table of 00_scope.md R5 to R7 as a configuration argument (93_implementation_defined.md
U11, 92_eei_decisions.md "Named parameters"): every operation of Machine/Ops.lean takes one. `Params.mt32` and
`Params.mt64` are the two variants. `FloatOps` is the three float operations of R113 as configuration (U7).
The `opaque` constants are free values: nothing can be proved of what they are. -/

namespace Sys2Proof

/-- The constant table of one variant (R5, R6), with the facts R7 and R10 give about it. -/
structure Params where
  /-- word width in bits -/
  W : Nat
  /-- number of words in the state array -/
  N : Nat
  /-- recurrence offset -/
  M : Nat
  /-- number of low bits kept by `LOW_BITS_MASK` -/
  R : Nat
  /-- width of the `index` register (R23) -/
  indexBits : Nat
  /-- twist constant -/
  A : Word W
  /-- seeding multiplier -/
  F : Word W
  /-- tempering shifts -/
  U : Nat
  S : Nat
  T : Nat
  L : Nat
  /-- tempering masks -/
  D : Word W
  B : Word W
  C : Word W
  W_ge : 32 ≤ W
  M_pos : 0 < M
  M_lt : M < N
  R_lt : R < W
  U_lt : U < W
  S_lt : S < W
  T_lt : T < W
  L_lt : L < W
  /-- "wide enough to hold `N`" (R23) -/
  N_fits : N < 2 ^ indexBits

namespace Params

/-- MT32 (R5; the tuning constants are the canonical MT19937 values of R6, decision D20). -/
def mt32 : Params where
  W := 32
  N := 624
  M := 397
  R := 31
  indexBits := 10
  A := 0x9908B0DF#32
  F := 0x6C078965#32
  U := 11
  S := 7
  T := 15
  L := 18
  D := 0xFFFFFFFF#32
  B := 0x9D2C5680#32
  C := 0xEFC60000#32
  W_ge := by decide
  M_pos := by decide
  M_lt := by decide
  R_lt := by decide
  U_lt := by decide
  S_lt := by decide
  T_lt := by decide
  L_lt := by decide
  N_fits := by decide

/-- MT64 (R5; the tuning constants are the canonical MT19937-64 values of R6, decision D20). -/
def mt64 : Params where
  W := 64
  N := 312
  M := 156
  R := 31
  indexBits := 9
  A := 0xB5026F5AA96619E9#64
  F := 0x5851F42D4C957F2D#64
  U := 29
  S := 17
  T := 37
  L := 43
  D := 0x5555555555555555#64
  B := 0x71D67FFFEDA60000#64
  C := 0xFFF7EEE000000000#64
  W_ge := by decide
  M_pos := by decide
  M_lt := by decide
  R_lt := by decide
  U_lt := by decide
  S_lt := by decide
  T_lt := by decide
  L_lt := by decide
  N_fits := by decide

/-- `LOW_BITS_MASK = 2^R - 1` (R6, R7). -/
def lowMask (P : Params) : Word P.W := word P.W (2 ^ P.R - 1)

/-- `HIGH_BIT_MASK = 2^W - 2^R` (R6, R7; 90_conflicts.md C4: one bit for MT32, 33 bits for MT64). -/
def highMask (P : Params) : Word P.W := word P.W (2 ^ P.W - 2 ^ P.R)

/-- `MAX = 2^(W-1) - 1` (R5). -/
def MAX (P : Params) : Nat := 2 ^ (P.W - 1) - 1

theorem N_pos (P : Params) : 0 < P.N := Nat.lt_of_le_of_lt (Nat.zero_le _) P.M_lt

end Params

/-- `CHUNKS = 16,777,216`, the same in both variants (R5). -/
def CHUNKS : Nat := 2 ^ 24

/-- The two variants (R2). A property of the instance, fixed when it is built (R63). -/
inductive Variant where
  | mt32
  | mt64
deriving DecidableEq, Repr

/-- The constant table of a variant. -/
def Variant.params : Variant → Params
  | .mt32 => Params.mt32
  | .mt64 => Params.mt64

/-- The word width of a variant. -/
abbrev Variant.W (v : Variant) : Nat := v.params.W

/-- The three float operations of RANGEF as functions of their two operand patterns alone (R113, U7). The
default, IEEE binary32 with one rounding to nearest-even, is `Machine.FloatOps.ieee` in Machine/Float.lean. -/
structure FloatOps where
  FSUB : Bits32 → Bits32 → Bits32
  FMUL : Bits32 → Bits32 → Bits32
  FADD : Bits32 → Bits32 → Bits32

/-- Free value: what element `i` of `words` holds after reset number `epoch` (R33 "unspecified, each element
independently"; assumption 2). -/
opaque Config.freeWord (P : Params) (epoch i : Nat) : Word P.W

/-- Free value: what `index` holds after reset number `epoch` (R33; assumption 2). -/
opaque Config.freeIndex (P : Params) (epoch : Nat) : BitVec P.indexBits

/-- Free value: sign and payload bits of the NaN an IEEE operation produces; no rule gives them and no
command reaches them (R114 "no NaN can be produced"; assumption 8). -/
opaque Config.freeNaN (x y : Bits32) : Bits32

end Sys2Proof
end

