-- ==== Sys2Proof/Syntax.lean ====
section
/-! DEFINITION. The commands, one constructor per row of spec/opcode_table.json (30_encoding.md R55, R57), each with
the variant of the instance it is presented to (R63) and both operand fields of format C (R56). A field that
a command ignores (R58) stands in the constructor all the same, so that no bit of a command word is lost.
`Written` is the written syntax of R65. -/

namespace Sys2Proof

/-- A decoded command: variant, field `a`, field `b`. -/
inductive Instr where
  /-- `op = 001` (R70): `a` the seed; `b` ignored. -/
  | seed (v : Variant) (a b : Word v.W)
  /-- `op = 010` (R85): `a`, `b` ignored. -/
  | extract (v : Variant) (a b : Word v.W)
  /-- `op = 011` (R94): `a` the divisor `n`; `b` ignored. -/
  | next (v : Variant) (a b : Word v.W)
  /-- `op = 100` (R105): `a`, `b` ignored. -/
  | nextf (v : Variant) (a b : Word v.W)
  /-- `op = 101` (R108): `a` = `min`, `b` = `max`, signed view. -/
  | range (v : Variant) (a b : Word v.W)
  /-- `op = 110` (R112): `a[31:0]` = `min`, `b[31:0]` = `max`, binary32. -/
  | rangef (v : Variant) (a b : Word v.W)
  /-- `op = 000`, reserved (R60, R123). -/
  | reserved000 (v : Variant) (a b : Word v.W)
  /-- `op = 111`, reserved (R60, R123). -/
  | reserved111 (v : Variant) (a b : Word v.W)
deriving DecidableEq, Repr

namespace Instr

/-- The variant of the instance a command is presented to (R63). -/
@[reducible] def variant : Instr → Variant
  | seed v _ _ | extract v _ _ | next v _ _ | nextf v _ _
  | range v _ _ | rangef v _ _ | reserved000 v _ _ | reserved111 v _ _ => v

/-- Field `a` of the command (R56). -/
@[reducible] def fieldA : (i : Instr) → Word i.variant.W
  | seed _ a _ | extract _ a _ | next _ a _ | nextf _ a _
  | range _ a _ | rangef _ a _ | reserved000 _ a _ | reserved111 _ a _ => a

/-- Field `b` of the command (R56). -/
@[reducible] def fieldB : (i : Instr) → Word i.variant.W
  | seed _ _ b | extract _ _ b | next _ _ b | nextf _ _ b
  | range _ _ b | rangef _ _ b | reserved000 _ _ b | reserved111 _ _ b => b

end Instr

/-- A command as R65 writes it: integer operands as integers (a minus sign for a negative value in the signed
view, or the raw pattern), float operands as 32-bit patterns. -/
inductive Written where
  | SEED (seed : Int)
  | EXTRACT
  | NEXT (n : Int)
  | NEXTF
  | RANGE (min max : Int)
  | RANGEF (min max : Bits32)
deriving DecidableEq, Repr

/-- A written command turned into a command for an instance of variant `v`; "unused fields are written as
zero" (R65). -/
def Written.assemble (v : Variant) : Written → Instr
  | SEED k => .seed v (BitVec.ofInt v.W k) 0
  | EXTRACT => .extract v 0 0
  | NEXT n => .next v (BitVec.ofInt v.W n) 0
  | NEXTF => .nextf v 0 0
  | RANGE lo hi => .range v (BitVec.ofInt v.W lo) (BitVec.ofInt v.W hi)
  | RANGEF lo hi => .rangef v (lo.setWidth v.W) (hi.setWidth v.W)

end Sys2Proof
end

