-- ==== Sys2Proof/WellFormed.lean ====
section
/-! DEFINITION. Which command terms are well formed. Widths hold by type. Two checks are left: the command is one of the six
(R60: a reserved `op` is illegal), and the fields it ignores are zero, as the written syntax leaves them
(R58, R65). Neither check is made by the hardware on a command word that reaches the port: R58 accepts any
value in an unused field and R123 answers a reserved `op` with a fault. The machine's meanings therefore
hold for ill-formed terms too. -/

namespace Sys2Proof

/-- The command is one of the six, not a reserved code (R55, R60). -/
def Instr.isCommand : Instr → Bool
  | .seed _ _ _ | .extract _ _ _ | .next _ _ _ | .nextf _ _ _ | .range _ _ _ | .rangef _ _ _ => true
  | .reserved000 _ _ _ | .reserved111 _ _ _ => false

/-- The bits a command ignores are zero (R58, R65). -/
def Instr.unusedZero : Instr → Bool
  | .seed _ _ b | .next _ _ b => b == 0
  | .extract _ a b | .nextf _ a b | .reserved000 _ a b | .reserved111 _ a b => a == 0 && b == 0
  | .range _ _ _ => true
  | .rangef _ a b => a.toNat < 2 ^ 32 && b.toNat < 2 ^ 32

/-- A command term that the written syntax of R65 can spell. -/
def Instr.wellFormed (i : Instr) : Bool := i.isCommand && i.unusedZero

/-- A written operand fits the word width: a value of the signed view or a raw pattern (R65). -/
def Written.operandFits (v : Variant) (k : Int) : Bool :=
  -(2 ^ (v.W - 1) : Int) ≤ k && k < (2 ^ v.W : Int)

/-- Every integer operand of the written command fits (R65). -/
def Written.fits (v : Variant) : Written → Bool
  | .SEED k | .NEXT k => operandFits v k
  | .RANGE lo hi => operandFits v lo && operandFits v hi
  | .EXTRACT | .NEXTF | .RANGEF _ _ => true

end Sys2Proof
end

