-- ==== Sys2Proof/Decode.lean ====
section
/-! DEFINITION. Decoding and encoding of format C (30_encoding.md R56 to R64): command word = `op ‖ a ‖ b`, `3 + 2W` bits. Decoding
reads no state and is total: every word is one of the six commands or a reserved code (R60, R64). -/

namespace Sys2Proof

/-- Length of a command word, `3 + 2W` (R56): 67 bits for MT32, 131 for MT64. -/
abbrev commandBits (v : Variant) : Nat := 3 + (v.W + v.W)

/-- A command word of format C (R56). -/
abbrev CommandWord (v : Variant) := BitVec (commandBits v)

/-- The operation codes, one per value of the `op` field (R57). -/
inductive Op where
  | reserved000 | seed | extract | next | nextf | range | rangef | reserved111
deriving DecidableEq, Repr

/-- The `op` field of each operation (R57). -/
def Op.code : Op → BitVec 3
  | .reserved000 => 0b000#3
  | .seed => 0b001#3
  | .extract => 0b010#3
  | .next => 0b011#3
  | .nextf => 0b100#3
  | .range => 0b101#3
  | .rangef => 0b110#3
  | .reserved111 => 0b111#3

/-- The operation of an `op` field (R57). -/
def Op.ofField (x : BitVec 3) : Op :=
  match x.toFin with
  | 0 => .reserved000
  | 1 => .seed
  | 2 => .extract
  | 3 => .next
  | 4 => .nextf
  | 5 => .range
  | 6 => .rangef
  | 7 => .reserved111

/-- The operation of a command. -/
def Instr.op : Instr → Op
  | .seed _ _ _ => .seed
  | .extract _ _ _ => .extract
  | .next _ _ _ => .next
  | .nextf _ _ _ => .nextf
  | .range _ _ _ => .range
  | .rangef _ _ _ => .rangef
  | .reserved000 _ _ _ => .reserved000
  | .reserved111 _ _ _ => .reserved111

/-- The command of an operation with its two operand fields. -/
def Op.instr (v : Variant) (a b : Word v.W) : Op → Instr
  | .seed => .seed v a b
  | .extract => .extract v a b
  | .next => .next v a b
  | .nextf => .nextf v a b
  | .range => .range v a b
  | .rangef => .rangef v a b
  | .reserved000 => .reserved000 v a b
  | .reserved111 => .reserved111 v a b

/-- `op = cmd[2W+2 : 2W]` (R56). -/
def opField {v : Variant} (cmd : CommandWord v) : BitVec 3 := cmd.extractLsb' (v.W + v.W) 3

/-- `a = cmd[2W-1 : W]` (R56). -/
def aField {v : Variant} (cmd : CommandWord v) : Word v.W := cmd.extractLsb' v.W v.W

/-- `b = cmd[W-1 : 0]` (R56). -/
def bField {v : Variant} (cmd : CommandWord v) : Word v.W := cmd.extractLsb' 0 v.W

/-- The decoder (R64). -/
def decode (v : Variant) (cmd : CommandWord v) : Instr :=
  (Op.ofField (opField cmd)).instr v (aField cmd) (bField cmd)

/-- The encoder: `op ‖ a ‖ b` (R56). -/
def encode (i : Instr) : CommandWord i.variant := i.op.code ++ (i.fieldA ++ i.fieldB)

/-- Why a number is no command word. -/
inductive DecodeError where
  /-- the number has a one-bit above bit `2W + 2`: format C has no such bit (R56) -/
  | longerThanFormatC
deriving DecidableEq, Repr

/-- A command written down as one number (R56), for an instance of variant `v`. -/
def decodeNumber (v : Variant) (w : Nat) : Except DecodeError Instr :=
  if w < 2 ^ commandBits v then .ok (decode v (BitVec.ofNat _ w)) else .error .longerThanFormatC

/-- The variant whose command word the opcode table's `nbits` names: 67 bits (9 bytes) are MT32, 131 bits (17
bytes) MT64 (R56; opcode_table.json `match` and `match_mt64`; assumption 10). -/
def tableVariant (nbits : Nat) : Variant := if nbits ≤ 72 then .mt32 else .mt64

/-- The instruction the decoder reads from a table row's bits: bit 0 of `w` is bit 0 of the command word. -/
def decodeTableWord (nbits w : Nat) : Option Instr :=
  match decodeNumber (tableVariant nbits) w with
  | .ok i => some i
  | .error _ => none

end Sys2Proof
end

