-- ==== Sys2Proof/Machine/State.lean ====
section
/-! DEFINITION. The state (10_state.md). The machine is one instance of MT32 and one of MT64 side by side (R2, R133; assumption 1),
and the caller, who presents commands and reset events (R27 "What a program counter would hold is held by the
caller"). Everything is plain data. -/

namespace Sys2Proof.Machine

/-- The `status` field of a response (R121); its 2-bit codes are `Status.code` in Flags.lean. -/
inductive Status where
  | ok
  | unseededUse
  | invalidArgument
  | illegalCommand
deriving DecidableEq, Repr

/-- One response (R30). `result` is `none` where its value is unspecified (after SEED and after a fault: "a
model must not give it one"). -/
structure Response (P : Params) where
  status : Status
  result : Option (Word P.W)
deriving DecidableEq, Repr

/-- The controller phases (R28). A command runs in one step, so between steps an instance is in IDLE or, while
a rejection loop has not ended, in SAMPLING; the other phases come and go inside a step. -/
inductive Phase where
  | idle | seeding | twisting | tempering | sampling | finishing
deriving DecidableEq, Repr

/-- What is done with an accepted draw: the FINISHING step of each sampling command, with the operands it
latches (R31 (a); R94, R105, R108, R112). -/
inductive Finish (P : Params) where
  | next
  | nextf
  | range (min : Word P.W)
  | rangef (min max : Bits32)
deriving DecidableEq, Repr

/-- A rejection loop in progress: the latched divisor `n` and the finishing step (R31 (a), R103). -/
structure Job (P : Params) where
  n : Nat
  finish : Finish P
deriving DecidableEq, Repr

/-- The state of one instance (R20, R23, R25; ghost counters R31). -/
structure Inst (P : Params) where
  /-- the state array: `N` registers of `W` bits (R20) -/
  words : Vector (Word P.W) P.N
  /-- the cursor (R23) -/
  index : BitVec P.indexBits
  /-- SEED has completed since the last reset (R25) -/
  seeded : Bool
  /-- the rejection loop in progress, if one has not ended (R28 SAMPLING, R31 (a), R101) -/
  job : Option (Job P)
  /-- the response port: every response since the last reset, newest first (R30, R145); an empty list is the
  unspecified output before the first response (R33) -/
  responses : List (Response P)
  /-- ghost counter: TWIST operations since the last SEED (R31 (b)) -/
  twists : Nat
  /-- ghost counter: extractions since the last SEED (R31 (b)) -/
  extracts : Nat
  /-- the model's own: which reset this is, so that each reset leaves fresh free values (assumption 2) -/
  resets : Nat
deriving DecidableEq, Repr

/-- What the caller and the reset input present to an instance (R29, R140, R142). -/
inductive Event where
  /-- a command word on the command port (R29) -/
  | command (v : Variant) (cmd : CommandWord v)
  /-- a reset between commands, or while a rejection loop runs (R140, R142) -/
  | reset (v : Variant)
  /-- a command taken, and a reset before its response (R142) -/
  | resetDuring (v : Variant) (cmd : CommandWord v)
deriving DecidableEq, Repr

/-- Reasons for the machine to stop. There are none: the spec's three faults are responses, after which the
block takes the next command (R124, R129, R130), and a rejection loop that does not end stays in SAMPLING. -/
inductive Fault where
deriving DecidableEq, Repr

/-- Reasons for the model to have no meaning. -/
inductive Refusal where
  /-- an arm of `exec` that has no meaning yet (safe); no arm raises it -/
  | notModelled (mnemonic : String)
deriving DecidableEq, Repr

/-- The whole state. -/
structure State where
  mt32 : Inst Params.mt32
  mt64 : Inst Params.mt64
  /-- what the caller will present, next first (R27, R145; one caller, R134 and 93 U13) -/
  caller : List Event
deriving DecidableEq, Repr

/-- An instance right after reset number `epoch` (R33, R140): `words` and `index` unspecified. -/
def Inst.atReset (P : Params) (epoch : Nat) : Inst P where
  words := Vector.ofFn fun i => Config.freeWord P epoch i
  index := Config.freeIndex P epoch
  seeded := false
  job := none
  responses := []
  twists := 0
  extracts := 0
  resets := epoch

/-- The machine right after reset: both instances reset, nothing presented ("the block runs nothing after
reset until a command arrives", R33). -/
def State.reset : State where
  mt32 := Inst.atReset Params.mt32 0
  mt64 := Inst.atReset Params.mt64 0
  caller := []

end Sys2Proof.Machine
end

