-- ==== Sys2Proof/Machine/Flags.lean ====
section
/-! DEFINITION. The one flag, the status codes and the phase. There are no condition codes: `seeded` is written by reset and by
SEED and read by every other command (10_state.md R25); no arithmetic sets a flag (00_scope.md R10). -/

namespace Sys2Proof.Machine

variable {P : Params}

/-- The 2-bit `status` code of a response (R121). -/
def Status.code : Status → BitVec 2
  | .ok => 0b00#2
  | .unseededUse => 0b01#2
  | .invalidArgument => 0b10#2
  | .illegalCommand => 0b11#2

/-- The fault of a command that needs a seeded instance and has the given operand legality, if any: UnseededUse
outranks InvalidArgument (R128). IllegalCommand, which outranks both, is the reserved commands' own. -/
def faultOf (g : Inst P) (legal : Bool) : Option Status :=
  if g.seeded = false then some .unseededUse
  else if legal = false then some .invalidArgument
  else none

/-- The controller phase between steps (R28). -/
def Inst.phase (g : Inst P) : Phase :=
  match g.job with
  | none => .idle
  | some _ => .sampling

/-- The block takes a command only in phase IDLE (R146). -/
def Inst.busy (g : Inst P) : Bool := g.job.isSome

/-- What a rule may read of `words` and `index`: nothing before the first SEED (R34 "represent the pre-seed
contents as absent"). -/
def Inst.contents (g : Inst P) : Option (Vector (Word P.W) P.N × BitVec P.indexBits) :=
  if g.seeded then some (g.words, g.index) else none

end Sys2Proof.Machine
end

