-- ==== Sys2Proof/Machine/Float.lean ====
section
/-! DEFINITION. binary32 (44_derived.md R106, R113, R114). A finite pattern is an integer number of units `2^-149`; sums and
products are formed exactly and rounded once, to nearest with ties to even, at the end. -/

namespace Sys2Proof.Machine

namespace Binary32

/-- Bit 31 (R106). -/
def sign (x : Bits32) : Bool := x.getLsbD 31

/-- Exponent field, bits 30 to 23, bias 127 (R106). -/
def expField (x : Bits32) : Nat := (x.extractLsb' 23 8).toNat

/-- Fraction field, bits 22 to 0 (R106). -/
def fracField (x : Bits32) : Nat := (x.extractLsb' 0 23).toNat

/-- Neither an infinity nor a NaN: exponent field not `0xFF` (R114). -/
def finite (x : Bits32) : Bool := expField x != 255

def isNaN (x : Bits32) : Bool := expField x == 255 && fracField x != 0

def isInf (x : Bits32) : Bool := expField x == 255 && fracField x == 0

/-- Magnitude of a finite pattern, in units of `2^-149`: `(2^23 + f) * 2^(e-1)` for a normal number, `f` for
`e = 0`. -/
def magnitude (x : Bits32) : Nat :=
  if expField x = 0 then fracField x else (2 ^ 23 + fracField x) * 2 ^ (expField x - 1)

/-- Value of a finite pattern, in units of `2^-149`. -/
def value (x : Bits32) : Int := if sign x then -(magnitude x : Int) else (magnitude x : Int)

/-- The pattern with a given sign and the given 31 bits below it. -/
def withSign (s : Bool) (bits : Nat) : Bits32 := BitVec.ofBool s ++ BitVec.ofNat 31 bits

/-- The 31 bits of infinity. -/
def infBits : Nat := 255 * 2 ^ 23

/-- `m / 2^k` rounded to nearest, ties to even (R113). -/
def roundShift (m k : Nat) : Nat :=
  let q := m / 2 ^ k
  let r := m % 2 ^ k
  if 2 ^ k < 2 * r ∨ (2 * r = 2 ^ k ∧ q % 2 = 1) then q + 1 else q

/-- The 31 bits below the sign of `m * 2^-unit` rounded once to binary32 (`149 ≤ unit`): `k` is how many low
bits of `m` fall below the 24-bit significand or below `2^-149`; a carry out of the significand runs into
the exponent field; overflow gives infinity. -/
def roundBits (m unit : Nat) : Nat :=
  let k := max (Nat.log2 m - 23) (unit - 149)
  min ((k - (unit - 149)) * 2 ^ 23 + roundShift m k) infBits

/-- A quiet NaN; its sign and payload are free. -/
def nan (x y : Bits32) : Bits32 := 0x7FC00000#32 ||| Config.freeNaN x y

/-- IEEE addition, rounded once to nearest-even (R113). An exact sum of zero is `+0.0`, but `-0.0` when both
operands are negative (R116 (b)). -/
def add (x y : Bits32) : Bits32 :=
  if finite x && finite y then
    let total := value x + value y
    if total = 0 then withSign (sign x && sign y) 0
    else withSign (decide (total < 0)) (roundBits total.natAbs 149)
  else if isNaN x || isNaN y || (isInf x && isInf y && sign x != sign y) then nan x y
  else if isInf x then x else y

/-- The pattern with its sign bit flipped. -/
def neg (x : Bits32) : Bits32 := x ^^^ 0x80000000#32

/-- IEEE subtraction, rounded once to nearest-even (R113). -/
def sub (x y : Bits32) : Bits32 := if isNaN y then nan x y else add x (neg y)

/-- IEEE multiplication, rounded once to nearest-even (R113). -/
def mul (x y : Bits32) : Bits32 :=
  let s := sign x != sign y
  if finite x && finite y then withSign s (roundBits (magnitude x * magnitude y) 298)
  else if isNaN x || isNaN y || magnitude x = 0 || magnitude y = 0 then nan x y
  else withSign s infBits

/-- The 31 bits below the sign, signed: orders the patterns that are no NaN, with `-0.0 = +0.0`. -/
def orderKey (x : Bits32) : Int :=
  let bits : Nat := (x.extractLsb' 0 31).toNat
  if sign x then -(bits : Int) else (bits : Int)

/-- `x < y` in the IEEE 754 ordering (R114): a NaN is unordered, `-0.0` and `+0.0` are equal. -/
def less (x y : Bits32) : Bool := !isNaN x && !isNaN y && decide (orderKey x < orderKey y)

end Binary32

/-- The default of R113: IEEE binary32, each operation rounded once to nearest-even. -/
def FloatOps.ieee : FloatOps where
  FSUB := Binary32.sub
  FMUL := Binary32.mul
  FADD := Binary32.add

/-- The float operations of this machine. -/
def floatOps : FloatOps := FloatOps.ieee

/-- `F32(i)`: the binary32 pattern of `i / 2^24`, for `0 ≤ i < 2^24` (R106). -/
def F32 (i : Nat) : Bits32 :=
  if i = 0 then 0x00000000#32
  else
    let k := Nat.log2 i
    let e := k + 103
    let f := (i - 2 ^ k) * 2 ^ (23 - k)
    0#1 ++ BitVec.ofNat 8 e ++ BitVec.ofNat 23 f

end Sys2Proof.Machine
end

