-- ==== Sys2Proof/Machine/Operands.lean ====
section
/-! DEFINITION. The operand forms: how each command reads its fields (30_encoding.md R58, R59), which operands are legal
(R95, R109, R114), the acceptance bound (R96) and the finishing step of each sampling command. -/

namespace Sys2Proof.Machine

variable {P : Params}

/-- How an extracted word is read as a number in the rejection test: unsigned, all `W` bits (R97, decision D9;
the one place of that choice, 93_implementation_defined.md U12). -/
def wordValue (y : Word P.W) : Nat := uval y

/-- `LegalDivisor(a)`: `s(a) > 0` (R95). -/
def legalDivisor (a : Word P.W) : Bool := decide (0 < sval a)

/-- `LIMIT = MAX - (MAX mod n)` (R96). -/
def limit (P : Params) (n : Nat) : Nat := P.MAX - P.MAX % n

/-- `LegalRange(a, b)`: the true integer difference `s(b) - s(a)` lies in `1 .. MAX` (R109). -/
def legalRange (a b : Word P.W) : Bool :=
  let D := sval b - sval a
  decide (1 ≤ D) && decide (D ≤ P.MAX)

/-- The divisor of RANGE, `b -w a` (R108). -/
def rangeDivisor (a b : Word P.W) : Word P.W := b - a

/-- A float operand is the low 32 bits of its field; for MT64 the rest is ignored (R58). -/
def floatOperand (a : Word P.W) : Bits32 := a.extractLsb' 0 32

/-- `LegalRangeF(x, y)`: both finite, `x < y`, and the difference finite (R114). -/
def legalRangeF (ops : FloatOps) (x y : Bits32) : Bool :=
  Binary32.finite x && Binary32.finite y && Binary32.less x y && Binary32.finite (ops.FSUB y x)

/-- `zext_W` of a binary32 pattern (R105, R112). -/
def zextW (P : Params) (x : Bits32) : Word P.W := x.setWidth P.W

/-- The affine step of RANGEF: `nextf() * (max - min) + min`, three operations in this order, none fused
(R112, R113). -/
def affine (ops : FloatOps) (fr min max : Bits32) : Bits32 :=
  ops.FADD (ops.FMUL fr (ops.FSUB max min)) min

/-- The result of a sampling command from its draw `r`: R94 `word(r)`; R105 `zext_W(F32(r))`; R108
`min +w word(r)`; R112 the affine step. -/
def Finish.result (ops : FloatOps) (r : Nat) : Finish P → Word P.W
  | .next => word P.W r
  | .nextf => zextW P (F32 r)
  | .range min => min + word P.W r
  | .rangef min max => zextW P (affine ops (F32 r) min max)

end Sys2Proof.Machine
end

