-- ==== Sys2Proof/Machine/Ops.lean ====
section
/-! DEFINITION. The internal operations over one instance: Fill, TWIST, Temper, Extract, Sample, the response port, the delivery
of a fault, reset; and the access to the two instances of the machine. -/

namespace Sys2Proof.Machine

variable {P : Params}

/-! ### The state array: addresses (R42) -/

/-- `(i+1) mod N`. -/
def nextAddr (i : Fin P.N) : Fin P.N := ⟨(i.val + 1) % P.N, Nat.mod_lt _ P.N_pos⟩

/-- `(i+M) mod N`. -/
def farAddr (i : Fin P.N) : Fin P.N := ⟨(i.val + P.M) % P.N, Nat.mod_lt _ P.N_pos⟩

/-! ### Fill (R71) -/

/-- The word Fill writes at `i` from the word `p` it wrote at `i-1`:
`(F *w (p ^ (p >> (W-2)))) +w word(i)`. -/
def fillNext (p : Word P.W) (i : Nat) : Word P.W :=
  P.F * (p ^^^ (p >>> (P.W - 2))) + word P.W i

/-- Iteration `i = j+1` of Fill. -/
def fillStep (j : Nat) (h : j + 1 < P.N) (ws : Vector (Word P.W) P.N) : Vector (Word P.W) P.N :=
  ws.set (j + 1) (fillNext ws[j] (j + 1)) h

/-- The first `k` iterations of Fill, after `words[0] <- a`. -/
def fillUpTo (a : Word P.W) (ws : Vector (Word P.W) P.N) : (k : Nat) → k < P.N → Vector (Word P.W) P.N
  | 0, h => ws.set 0 a h
  | j + 1, h => fillStep j h (fillUpTo a ws j (Nat.lt_of_succ_lt h))

/-- Fill: `words[0] <- a`, then `i = 1` to `N-1` in order. -/
def fill (a : Word P.W) (ws : Vector (Word P.W) P.N) : Vector (Word P.W) P.N :=
  fillUpTo a ws (P.N - 1) (Nat.sub_lt P.N_pos Nat.one_pos)

/-! ### TWIST (R76, R77) -/

/-- `y`: the masked high bits of the current word plus the masked low bits of the next (R76). -/
def twistY (cur nxt : Word P.W) : Word P.W := (cur &&& P.highMask) + (nxt &&& P.lowMask)

/-- The word TwistStep writes, from the three words it reads (R76). -/
def twistMix (cur nxt far : Word P.W) : Word P.W :=
  let y := twistY cur nxt
  let v := far ^^^ (y >>> 1)
  if y.getLsbD 0 then v ^^^ P.A else v

/-- TwistStep(i): three reads, then the write, in place (R76). -/
def twistStep (ws : Vector (Word P.W) P.N) (i : Fin P.N) : Vector (Word P.W) P.N :=
  ws.set i (twistMix ws[i] ws[nextAddr i] ws[farAddr i]) i.isLt

/-- The first `k` iterations of TWIST, ascending, each complete before the next (R77). -/
def twistUpTo (ws : Vector (Word P.W) P.N) : (k : Nat) → k ≤ P.N → Vector (Word P.W) P.N
  | 0, _ => ws
  | i + 1, h => twistStep (twistUpTo ws i (Nat.le_of_succ_le h)) ⟨i, h⟩

/-- The array TWIST leaves. -/
def twistWords (ws : Vector (Word P.W) P.N) : Vector (Word P.W) P.N := twistUpTo ws P.N (Nat.le_refl _)

/-- TWIST: all `N` words, then `index <- 0`; the ghost counter `twists` goes up (R77, R79). -/
def twist (g : Inst P) : Inst P :=
  { g with words := twistWords g.words, index := 0, twists := g.twists + 1 }

/-! ### Extract (R86 to R88) -/

/-- Temper: four steps in fixed order, each on the result of the one before (R88). -/
def temper (y0 : Word P.W) : Word P.W :=
  let y1 := y0 ^^^ ((y0 >>> P.U) &&& P.D)
  let y2 := y1 ^^^ ((y1 <<< P.S) &&& P.B)
  let y3 := y2 ^^^ ((y2 <<< P.T) &&& P.C)
  y3 ^^^ (y3 >>> P.L)

/-- The read of `words[index]`, its tempering and the cursor's advance; the state word stays untempered
(R87). -/
def extractAt (g : Inst P) (i : Fin P.N) : Word P.W × Inst P :=
  (temper g.words[i], { g with index := g.index + 1, extracts := g.extracts + 1 })

/-- Extract: TWIST first if `index >= N`, then the read at the cursor (R86). -/
def extract (g : Inst P) : Word P.W × Inst P :=
  if h : g.index.toNat < P.N then extractAt g ⟨g.index.toNat, h⟩
  else extractAt (twist g) ⟨0, P.N_pos⟩

/-! ### The response port and the delivery of a fault (R30, R124, R129) -/

/-- The response that ends a command. -/
def Inst.respond (g : Inst P) (st : Status) (result : Option (Word P.W)) : Inst P :=
  { g with responses := ⟨st, result⟩ :: g.responses }

/-- A command raises a fault: the response carries its code and no result, and nothing else changes (R124).
There is nothing to return from; the next command is taken as after an OK response (R129, R130). -/
def Inst.raise (g : Inst P) (st : Status) : Inst P := g.respond st none

/-- A command that needs a seeded instance and legal operands: one of its faults, in the order of R128, before
its first extraction; otherwise its body. -/
def guarded (legal : Bool) (body : Inst P → Inst P) (g : Inst P) : Inst P :=
  match faultOf g legal with
  | some st => g.raise st
  | none => body g

/-! ### Sample, the rejection loop (R98) -/

/-- One iteration: one extraction and one comparison. An accepted word ends the loop with the command's
response; a rejected one is consumed and the loop goes on. Without a loop in progress nothing happens. -/
def sampleIter (ops : FloatOps) (g : Inst P) : Inst P :=
  match g.job with
  | none => g
  | some j =>
    let r := extract g
    let x := wordValue r.1
    if x < limit P j.n then
      ({ r.2 with job := none } : Inst P).respond .ok (some (j.finish.result ops (x % j.n)))
    else r.2

/-- At most `k` iterations of the loop in progress. -/
def runSample (ops : FloatOps) : Nat → Inst P → Inst P
  | 0, g => g
  | k + 1, g => if g.busy then runSample ops k (sampleIter ops g) else g

/-- The number of values of (`words`, `index`). A loop that has rejected this many words in a row has come back
to a state it was in before and never ends, so running it this far is no cap (R101; assumption 5). -/
def loopBound (P : Params) : Nat := 2 ^ (P.W * P.N + P.indexBits)

/-- Latch the divisor and the finishing step, and run the loop: to its end, or, if it has none, into phase
SAMPLING for good (R94, R98, R101). -/
def sample (ops : FloatOps) (n : Nat) (fin : Finish P) (g : Inst P) : Inst P :=
  runSample ops (loopBound P) { g with job := some ⟨n, fin⟩ }

/-! ### The two instances (R26, R133) -/

/-- The instance of a variant. -/
def State.inst (s : State) : (v : Variant) → Inst v.params
  | .mt32 => s.mt32
  | .mt64 => s.mt64

/-- The state with the instance of a variant replaced. -/
def State.setInst (s : State) : (v : Variant) → Inst v.params → State
  | .mt32, g => { s with mt32 := g }
  | .mt64, g => { s with mt64 := g }

/-- The state with the instance of a variant updated. -/
def State.onInst (s : State) (v : Variant) (f : Inst v.params → Inst v.params) : State :=
  s.setInst v (f (s.inst v))

/-! ### Reset and waiting (R140 to R142, R146) -/

/-- A reset of one instance, in whatever phase it is (R140, R142). -/
def Inst.reset (g : Inst P) : Inst P := Inst.atReset P (g.resets + 1)

/-- Time passes for one instance while no command is taken: an idle one holds its state (R135), a rejection
loop that has not ended makes one more iteration (R103). -/
def Inst.wait (g : Inst P) : Inst P := sampleIter floatOps g

end Sys2Proof.Machine
end

