-- ==== Sys2Proof/Machine/Extract.lean ====
section
/-! DEFINITION. EXTRACT (42_extract.md R85). -/

namespace Sys2Proof.Machine

/-- One extraction, whose tempered word is the result (R85). -/
def extractBody {P : Params} (g : Inst P) : Inst P :=
  let r := extract g
  r.2.respond .ok (some r.1)

/-- EXTRACT: `a` and `b` ignored; UnseededUse when `seeded = 0` (R85). -/
def execExtract (v : Variant) (_a _b : Word v.W) (s : State) : Host.Outcome State Fault Refusal :=
  .next (s.onInst v (guarded true extractBody))

end Sys2Proof.Machine
end

