-- ==== Sys2Proof/Machine/Reserved.lean ====
section
/-! DEFINITION. The reserved codes: IllegalCommand "whatever `a`, `b` and the state are" (60_exceptions.md R123). -/

namespace Sys2Proof.Machine

/-- `op = 000` (R123). -/
def execReserved000 (v : Variant) (_a _b : Word v.W) (s : State) : Host.Outcome State Fault Refusal :=
  .next (s.onInst v (Inst.raise · .illegalCommand))

/-- `op = 111` (R123). -/
def execReserved111 (v : Variant) (_a _b : Word v.W) (s : State) : Host.Outcome State Fault Refusal :=
  .next (s.onInst v (Inst.raise · .illegalCommand))

end Sys2Proof.Machine
end

