-- ==== Sys2Proof/Machine/Sampling.lean ====
section
/-! DEFINITION. NEXT (43_sample.md) and the derived commands NEXTF, RANGE, RANGEF (44_derived.md). -/

namespace Sys2Proof.Machine

/-- NEXT: `a` the divisor `n`, `b` ignored (R94). -/
def execNext (v : Variant) (a _b : Word v.W) (s : State) : Host.Outcome State Fault Refusal :=
  .next (s.onInst v (guarded (legalDivisor a) (sample floatOps (uval a) .next)))

/-- NEXTF: `a` and `b` ignored; `CHUNKS` is a legal divisor, so UnseededUse is its only fault (R105). -/
def execNextf (v : Variant) (_a _b : Word v.W) (s : State) : Host.Outcome State Fault Refusal :=
  .next (s.onInst v (guarded true (sample floatOps CHUNKS .nextf)))

/-- RANGE: `a` = `min`, `b` = `max` in the signed view (R108). -/
def execRange (v : Variant) (a b : Word v.W) (s : State) : Host.Outcome State Fault Refusal :=
  .next (s.onInst v (guarded (legalRange a b) (sample floatOps (uval (rangeDivisor a b)) (.range a))))

/-- RANGEF: `a[31:0]` = `min`, `b[31:0]` = `max`, binary32 (R112). -/
def execRangef (v : Variant) (a b : Word v.W) (s : State) : Host.Outcome State Fault Refusal :=
  .next (s.onInst v (guarded (legalRangeF floatOps (floatOperand a) (floatOperand b))
    (sample floatOps CHUNKS (.rangef (floatOperand a) (floatOperand b)))))

end Sys2Proof.Machine
end

