-- ==== Sys2Proof/Machine/Seed.lean ====
section
/-! DEFINITION. SEED (40_seed.md R70 to R74). -/

namespace Sys2Proof.Machine

/-- Fill, `index <- N`, `seeded <- 1`, ghost counters to 0; no result (R70, R72). -/
def seedCommand {P : Params} (a : Word P.W) (g : Inst P) : Inst P :=
  ({ g with
      words := fill a g.words
      index := BitVec.ofNat P.indexBits P.N
      seeded := true
      twists := 0
      extracts := 0 } : Inst P).respond .ok none

/-- SEED: `a` the seed, `b` ignored (R70). -/
def execSeed (v : Variant) (a _b : Word v.W) (s : State) : Host.Outcome State Fault Refusal :=
  .next (s.onInst v (seedCommand a))

end Sys2Proof.Machine
end

