-- ==== Sys2Proof/Machine/Dispatch.lean ====
section
/-! DEFINITION. One arm per command of spec/opcode_table.json. -/

namespace Sys2Proof.Machine

def exec (i : Instr) (s : State) : Host.Outcome State Fault Refusal :=
  match i with
  | .seed v a b => Sys2Proof.Machine.execSeed v a b s
  | .extract v a b => Sys2Proof.Machine.execExtract v a b s
  | .next v a b => Sys2Proof.Machine.execNext v a b s
  | .nextf v a b => Sys2Proof.Machine.execNextf v a b s
  | .range v a b => Sys2Proof.Machine.execRange v a b s
  | .rangef v a b => Sys2Proof.Machine.execRangef v a b s
  | .reserved000 v a b => Sys2Proof.Machine.execReserved000 v a b s
  | .reserved111 v a b => Sys2Proof.Machine.execReserved111 v a b s

end Sys2Proof.Machine
end

