-- ==== Sys2Proof/Machine/Port.lean ====
section
/-! DEFINITION. The command port and the reset input: what one step does with the event the caller presents next. -/

namespace Sys2Proof.Machine

/-- The state with the next event taken from the caller. -/
def State.taken (s : State) (rest : List Event) : State := { s with caller := rest }

/-- A command word is on the port of instance `v`. It is taken in phase IDLE, decoded and run; otherwise it
waits, neither queued nor dropped, while the command in progress goes on (R146; 93 U15). -/
def presentCommand (v : Variant) (cmd : CommandWord v) (rest : List Event) (s : State) :
    Host.Outcome State Fault Refusal :=
  if (s.inst v).busy then .next (s.onInst v Inst.wait)
  else exec (decode v cmd) (s.taken rest)

/-- A reset reaches instance `v` (R140), or reaches it before the response of the command it has taken, which
then has none (R142). -/
def presentReset (v : Variant) (rest : List Event) (s : State) : Host.Outcome State Fault Refusal :=
  .next ((s.taken rest).onInst v Inst.reset)

/-- Nothing is presented: idle instances hold their state, a loop in progress goes on (R135, R103). -/
def presentNothing (s : State) : Host.Outcome State Fault Refusal :=
  .next ((s.onInst .mt32 Inst.wait).onInst .mt64 Inst.wait)

/-- What one step does with what the caller presents. -/
def present (s : State) : List Event → Host.Outcome State Fault Refusal
  | [] => presentNothing s
  | .command v cmd :: rest => presentCommand v cmd rest s
  | .reset v :: rest => presentReset v rest s
  | .resetDuring v _ :: rest => presentReset v rest s

/-- The next event is the command written as the number `w` on the port of an idle instance `v`; a number that
is no command word (R56) cannot be presented, and then nothing is. -/
def State.presenting (s : State) (v : Variant) (w : Nat) : State :=
  if w < 2 ^ commandBits v then
    { s.onInst v (fun g => { g with job := none }) with caller := .command v (BitVec.ofNat _ w) :: s.caller }
  else { s with caller := [] }

end Sys2Proof.Machine
end

