-- ==== Sys2Proof/Machine/Step.lean ====
section
/-! DEFINITION. One step: what the caller presents next is taken, or waits. -/

namespace Sys2Proof.Machine

/-- One step of the machine. -/
def step (s : State) : Host.Outcome State Fault Refusal := present s s.caller

/-- `s` with the instruction of a table row presented next, on the port of the variant that `nbits` names. -/
def State.withFetchWord (s : State) (nbits w : Nat) : State := s.presenting (tableVariant nbits) w

end Sys2Proof.Machine
end

