-- ==== Sys2Proof/Safety.lean ====
section
/-! DEFINITION. The words claims are stated in: the stream of extractions an instance will make, when a draw is accepted, what
a run of commands leaves, well-formed states (R35), the invariant, and a run without faults (92 D8). -/

namespace Sys2Proof.Machine

variable {P : Params}

/-! ### The stream of an instance -/

/-- The instance after `k` extractions. -/
def afterExtracts : Nat → Inst P → Inst P
  | 0, g => g
  | k + 1, g => (extract (afterExtracts k g)).2

/-- The number read from the `k`-th extraction to come, counting from 0 (R97). -/
def drawn (g : Inst P) (k : Nat) : Nat := wordValue (extract (afterExtracts k g)).1

/-- The `k`-th extraction to come is the first whose word passes the test of the rejection loop for the divisor
`n`: `x < MAX - (MAX mod n)` (R98). -/
def FirstAccepted (g : Inst P) (n k : Nat) : Prop :=
  drawn g k < P.MAX - P.MAX % n ∧ ∀ j < k, P.MAX - P.MAX % n ≤ drawn g j

/-- The instance a sampling command leaves when draw `k` is the first accepted: `k + 1` extractions made, no
loop in progress, one OK response. -/
def afterSample (g : Inst P) (k : Nat) (result : Word P.W) : Inst P :=
  ({ afterExtracts (k + 1) g with job := none } : Inst P).respond .ok (some result)

/-! ### Runs -/

/-- The state after a list of commands, each presented after the response of the one before (R145, R146): a
command whose instance still runs a rejection loop is not presented, nor is any command after it. -/
def execAll : List Instr → State → State
  | [], s => s
  | i :: rest, s =>
    if (s.inst i.variant).busy then s
    else
      match exec i s with
      | .next t => execAll rest t
      | .fault _ => s
      | .refused _ => s

/-- The outcome of a run on one instance (R145): its responses in the order they were given, and the final
triple, of which `words` and `index` are absent while unseeded (R34). -/
structure RunOutcome (P : Params) where
  responses : List (Response P)
  contents : Option (Vector (Word P.W) P.N × BitVec P.indexBits)
  seeded : Bool
deriving DecidableEq, Repr

/-- What an instance shows of the run that led to it (R145). -/
def Inst.outcome (g : Inst P) : RunOutcome P := ⟨g.responses.reverse, g.contents, g.seeded⟩

/-- The outcome of the run of `cmds` on instance `v` from `s`. There is none while a command has not responded:
"A run in which a command never responds ... has not ended" (R145). -/
def runOutcome (v : Variant) (cmds : List (CommandWord v)) (s : State) : Option (RunOutcome v.params) :=
  let g := (execAll (cmds.map (decode v)) s).inst v
  if g.busy then none else some g.outcome

/-- The state after a number of steps. -/
def stepAll : Nat → State → State
  | 0, s => s
  | n + 1, s =>
    match step s with
    | .next t => stepAll n t
    | .fault _ => s
    | .refused _ => s

/-- The same instance but for its past responses and the count of resets: all that a command can read. -/
def Inst.sameCore (g g' : Inst P) : Prop :=
  g.words = g'.words ∧ g.index = g'.index ∧ g.seeded = g'.seeded ∧ g.job = g'.job ∧
    g.twists = g'.twists ∧ g.extracts = g'.extracts

/-! ### Well-formed states and the invariant -/

/-- Well-formed and seeded (R35): every element holds a `W`-bit value by type, so `seeded = 1` and
`index <= N` are left. -/
def Inst.wellFormedSeeded (g : Inst P) : Prop := g.seeded = true ∧ g.index.toNat ≤ P.N

/-- What every step keeps of one instance: a seeded one has its cursor in `0 .. N` and its ghost counters in
step with it (R24, R91); an unseeded one has made no extraction, runs no loop and has only faulted (R33, R122);
a response carries a result only with status OK (R30); a loop in progress has a legal divisor (R95). -/
structure Inst.Inv (g : Inst P) : Prop where
  cursor : g.seeded = true → g.index.toNat ≤ P.N
  counters : g.seeded = true → g.extracts + P.N = P.N * g.twists + g.index.toNat
  drawnFrom : g.seeded = true → 0 < g.extracts → 0 < g.index.toNat
  unseeded : g.seeded = false → g.twists = 0 ∧ g.extracts = 0 ∧ g.job = none
  onlyFaults : g.seeded = false → ∀ r ∈ g.responses, r.status ≠ .ok
  results : ∀ r ∈ g.responses, r.result.isSome = true → r.status = .ok
  divisor : ∀ j, g.job = some j → 1 ≤ j.n ∧ j.n ≤ P.MAX

/-- The invariant of the machine. -/
def State.Inv (s : State) : Prop := ∀ v, (s.inst v).Inv

/-- No fault response since the last reset: a safe run of an instance (92 D8). -/
def Inst.faultFree (g : Inst P) : Prop := ∀ r ∈ g.responses, r.status = .ok

end Sys2Proof.Machine
end

