-- ==== Sys2Proof/Certificates/Slice0/Obligations.lean ====
section
/-! DEFINITION. The statements for the provers. Each docstring names the rule of spec/ it formalises, or says that it is derived. -/

open Sys2Proof Sys2Proof.Machine

/-! ### Encoding (30_encoding.md) -/

/-- R57: the opcode map, for every operand and both variants, with the layout of R56. -/
def Obligations.OpFieldAloneSelectsTheCommand : Prop :=
  ∀ (v : Variant) (a b : Word v.W),
    decode v (0b000#3 ++ (a ++ b)) = .reserved000 v a b ∧
    decode v (0b001#3 ++ (a ++ b)) = .seed v a b ∧
    decode v (0b010#3 ++ (a ++ b)) = .extract v a b ∧
    decode v (0b011#3 ++ (a ++ b)) = .next v a b ∧
    decode v (0b100#3 ++ (a ++ b)) = .nextf v a b ∧
    decode v (0b101#3 ++ (a ++ b)) = .range v a b ∧
    decode v (0b110#3 ++ (a ++ b)) = .rangef v a b ∧
    decode v (0b111#3 ++ (a ++ b)) = .reserved111 v a b

/-- Derived from R56, R57, R64: no bit of an instruction is lost by encoding and decoding it, whatever stands
in the fields the command ignores. -/
def Obligations.DecodeOfEncodeIsTheInstruction : Prop :=
  ∀ i : Instr, decode i.variant (encode i) = i

/-- Derived from R60, R64: every command word of `3 + 2W` bits is the word of exactly one instruction, the one
it decodes to. -/
def Obligations.EveryCommandWordIsTheWordOfOneInstruction : Prop :=
  ∀ (v : Variant) (cmd : CommandWord v),
    (decode v cmd).variant = v ∧ (encode (decode v cmd)).toNat = cmd.toNat ∧
      ∀ i : Instr, i.variant = v → (encode i).toNat = cmd.toNat → i = decode v cmd

/-- Derived (95_test_vectors.md V11): command words written out in the spec decode to their commands. -/
def Obligations.WrittenOutCommandWordsDecode : Prop :=
  decode .mt32 (BitVec.ofNat _ 0x10000157100000000) = .seed .mt32 0x1571#32 0#32 ∧
  decode .mt32 (BitVec.ofNat _ 0x30000006400000000) = .next .mt32 100#32 0#32 ∧
  decode .mt32 (BitVec.ofNat _ 0x5FFFFFFFB00000005) = .range .mt32 0xFFFFFFFB#32 5#32 ∧
  decode .mt64 (BitVec.ofNat _ 0x200000000000000000000000000000000) = .extract .mt64 0#64 0#64 ∧
  decode .mt64 (BitVec.ofNat _ 0x600000000BF800000000000003F800000) =
    .rangef .mt64 0xBF800000#64 0x3F800000#64

/-- Derived from R65: a minus sign and a raw pattern spell the same command ("`NEXT -1` and `NEXT 0xFFFFFFFF`
are the same MT32 command"), and every written command assembles to a well-formed one. -/
def Obligations.WrittenCommandsAssemble : Prop :=
  ∀ v : Variant,
    (∀ k : Int, (Written.NEXT k).assemble v = (Written.NEXT (k + 2 ^ v.W)).assemble v) ∧
    ∀ w : Written, (w.assemble v).wellFormed = true

/-! ### Steps, the port and reset (10_state.md, 60_exceptions.md, 70_reset_and_hazards.md) -/

/-- Derived from R64, R146: an idle instance takes the command presented to it, and the step is that command's
`exec` on the state with the event taken, both instances as they were. That a command is one step is the model's step
size, which R28 permits (log entry 4), and the list of events is the model's (log entry 3). -/
def Obligations.StepRunsThePresentedCommand : Prop :=
  ∀ (s : State) (v : Variant) (cmd : CommandWord v) (rest : List Event),
    s.caller = .command v cmd :: rest → (s.inst v).phase = .idle →
      step s = exec (decode v cmd) (s.taken rest) ∧
        (s.taken rest).caller = rest ∧ ∀ v', (s.taken rest).inst v' = s.inst v'

/-- Derived from R146, R103: a command presented to a busy instance waits, it stays presented, and the loop in
progress goes on; its next word either ends it with an OK response or is rejected without one. That a step is
exactly one extraction is the model's granularity, which R103 permits (log entries 4 and 5), and that the other
instance stands still meanwhile, even in SAMPLING, is the model's schedule (log entry 1). -/
def Obligations.CommandWaitsWhileTheInstanceIsBusy : Prop :=
  ∀ (s : State) (v : Variant) (cmd : CommandWord v) (rest : List Event),
    s.caller = .command v cmd :: rest → (s.inst v).phase = .sampling →
      ∃ t, step s = .next t ∧ t.caller = s.caller ∧ (∀ v', v' ≠ v → t.inst v' = s.inst v') ∧
        (t.inst v).extracts = (s.inst v).extracts + 1 ∧ (t.inst v).seeded = (s.inst v).seeded ∧
        ((t.inst v).phase = .sampling ∧ (t.inst v).responses = (s.inst v).responses ∨
         (t.inst v).phase = .idle ∧
          ∃ x, (t.inst v).responses = ⟨.ok, some x⟩ :: (s.inst v).responses)

/-- Derived from R135 ("nothing but a command or a reset changes it"): with no loop in progress and nothing presented, a
step leaves the whole state as it is. -/
def Obligations.IdleMachineHoldsItsState : Prop :=
  ∀ s : State, s.caller = [] → (∀ v, (s.inst v).phase = .idle) → step s = .next s

/-- Derived from R33, R34: after reset each instance is unseeded and idle, its contents are absent, no response
has been given and the ghost counters are 0; nothing is presented. -/
def Obligations.ResetStateIsUnseededAndIdle : Prop :=
  State.reset.caller = [] ∧ ∀ v, (State.reset.inst v).seeded = false ∧ (State.reset.inst v).phase = .idle ∧
    (State.reset.inst v).contents = none ∧ (State.reset.inst v).responses = [] ∧
    (State.reset.inst v).twists = 0 ∧ (State.reset.inst v).extracts = 0

/-- Derived from R33, R140, R142: a reset, whether between commands, during a loop that has not ended or before
the response of a command just taken, leaves its instance in the reset state without a response, and the
other instance alone. The events are the model's form of the reset input (log entries 3 and 4). -/
def Obligations.ResetEventLeavesTheResetState : Prop :=
  ∀ (s : State) (v : Variant) (rest : List Event),
    (s.caller = .reset v :: rest ∨ ∃ cmd, s.caller = .resetDuring v cmd :: rest) →
      ∃ t, step s = .next t ∧ t.caller = rest ∧ (t.inst v).seeded = false ∧ (t.inst v).phase = .idle ∧
        (t.inst v).contents = none ∧ (t.inst v).responses = [] ∧
        (t.inst v).twists = 0 ∧ (t.inst v).extracts = 0 ∧ ∀ v', v' ≠ v → t.inst v' = s.inst v'

/-- Derived from R12, R130, R131: no command, operand or state stops the machine. -/
def Obligations.EveryStepGoesOn : Prop := ∀ s : State, ∃ t, step s = .next t

/-- Derived from R25: the seeded flag is cleared by a reset, set by a SEED that is taken, and written by nothing
else. Steps and events are the model's (log entries 3 and 4). -/
def Obligations.SeededIsWrittenByResetAndSeedOnly : Prop :=
  ∀ (s t : State) (v : Variant), step s = .next t →
    let isReset := ∃ rest, s.caller = .reset v :: rest ∨ ∃ cmd, s.caller = .resetDuring v cmd :: rest
    let takesSeed := (s.inst v).phase = .idle ∧
      ∃ cmd rest, s.caller = .command v cmd :: rest ∧ (decode v cmd).op = .seed
    (isReset → (t.inst v).seeded = false) ∧ (takesSeed → (t.inst v).seeded = true) ∧
      (¬ isReset → ¬ takesSeed → (t.inst v).seeded = (s.inst v).seeded)

/-! ### Faults (60_exceptions.md) -/

/-- R122: every command other than SEED, on an unseeded instance, whatever its operands: the response is
UnseededUse and nothing else changes. SEED never raises it, and on a seeded instance no command does. -/
def Obligations.UnseededReadingCommandsFault : Prop :=
  ∀ (i : Instr) (s : State),
    (i.isCommand = true → i.op ≠ .seed → (s.inst i.variant).seeded = false →
      exec i s = .next (s.setInst i.variant ((s.inst i.variant).respond .unseededUse none))) ∧
    (i.op = .seed ∨ (s.inst i.variant).seeded = true →
      ∃ t, exec i s = .next t ∧
        ∀ r, (t.inst i.variant).responses = r :: (s.inst i.variant).responses → r.status ≠ .unseededUse)

/-- R123: the reserved codes fault with IllegalCommand, whatever `a`, `b` and the state are. -/
def Obligations.ReservedCodesFaultInEveryState : Prop :=
  ∀ (v : Variant) (a b : Word v.W) (s : State),
    exec (.reserved000 v a b) s = .next (s.setInst v ((s.inst v).respond .illegalCommand none)) ∧
    exec (.reserved111 v a b) s = .next (s.setInst v ((s.inst v).respond .illegalCommand none))

/-- R95: `LegalDivisor(a)` is `s(a) > 0`, the same as `1 <= u(a) <= MAX`; an illegal divisor on a seeded
instance is InvalidArgument, before any extraction. -/
def Obligations.NextRefusesIllegalDivisors : Prop :=
  ∀ (v : Variant) (a b : Word v.W) (s : State),
    (0 < a.toInt ↔ 1 ≤ a.toNat ∧ a.toNat ≤ v.params.MAX) ∧
    ((s.inst v).seeded = true → a.toInt ≤ 0 →
      exec (.next v a b) s = .next (s.setInst v ((s.inst v).respond .invalidArgument none)))

/-- R109: the legal bounds are those whose true difference lies in `1 .. MAX`; in hardware terms, `a <s b` and
the top bit of `b -w a` clear; then `u(b -w a)` is the difference. Other bounds on a seeded instance are
InvalidArgument. -/
def Obligations.RangeRefusesIllegalBounds : Prop :=
  ∀ (v : Variant) (a b : Word v.W) (s : State),
    let D := b.toInt - a.toInt
    (1 ≤ D ∧ D ≤ v.params.MAX ↔ a.slt b = true ∧ (b - a).msb = false) ∧
    (1 ≤ D ∧ D ≤ v.params.MAX → ((b - a).toNat : Int) = D) ∧
    ((s.inst v).seeded = true → D < 1 ∨ v.params.MAX < D →
      exec (.range v a b) s = .next (s.setInst v ((s.inst v).respond .invalidArgument none)))

/-- Derived from R114, R125, with the IEEE default of R113 (log entry 9): each of the four conditions, on the low 32 bits of the operands. -/
def Obligations.RangefRefusesIllegalBounds : Prop :=
  ∀ (v : Variant) (a b : Word v.W) (s : State), (s.inst v).seeded = true →
    (Binary32.finite (a.extractLsb' 0 32) = false ∨ Binary32.finite (b.extractLsb' 0 32) = false ∨
      Binary32.less (a.extractLsb' 0 32) (b.extractLsb' 0 32) = false ∨
      Binary32.finite (Binary32.sub (b.extractLsb' 0 32) (a.extractLsb' 0 32)) = false) →
      exec (.rangef v a b) s = .next (s.setInst v ((s.inst v).respond .invalidArgument none))

/-- R124: whichever command answers with a fault, nothing but its response is new, and the response has no
result. -/
def Obligations.FaultsChangeNothingButTheResponse : Prop :=
  ∀ (i : Instr) (s t : State) (r : Response i.variant.params), exec i s = .next t →
    (t.inst i.variant).responses = r :: (s.inst i.variant).responses → r.status ≠ .ok →
      r.result = none ∧ t = s.setInst i.variant ((s.inst i.variant).respond r.status none)

/-- Derived from R125, R131 (92 D8): SEED, EXTRACT and NEXTF on a seeded instance, and NEXT, RANGE and RANGEF
with legal operands, add no fault response. -/
def Obligations.LegalCommandsOnASeededInstanceDoNotFault : Prop :=
  ∀ (v : Variant) (i : Instr) (s t : State) (a b : Word v.W), (s.inst v).seeded = true →
    (i = .seed v a b ∨ i = .extract v a b ∨ i = .nextf v a b ∨
      (i = .next v a b ∧ 1 ≤ a.toNat ∧ a.toNat ≤ v.params.MAX) ∨
      (i = .range v a b ∧ 1 ≤ b.toInt - a.toInt ∧ b.toInt - a.toInt ≤ v.params.MAX) ∨
      (i = .rangef v a b ∧
        legalRangeF FloatOps.ieee (a.extractLsb' 0 32) (b.extractLsb' 0 32) = true)) →
    (s.inst v).faultFree → exec i s = .next t → (t.inst v).faultFree

/-! ### SEED (40_seed.md) -/

/-- R70, R71 (and the ghost counters of R72): in every state SEED completes with no result; the array is Fill's, the cursor is exhausted,
the instance is seeded, the ghost counters are 0, and nothing else changes. -/
def Obligations.SeedFillsTheArrayAndMarksItSeeded : Prop :=
  ∀ (v : Variant) (a b : Word v.W) (s : State),
    ∃ ws : Vector (Word v.params.W) v.params.N,
      exec (.seed v a b) s = .next (s.setInst v
        (({ s.inst v with
              words := ws, index := BitVec.ofNat v.params.indexBits v.params.N, seeded := true,
              twists := 0, extracts := 0 } : Inst v.params).respond .ok none)) ∧
      ws[0]'v.params.N_pos = a ∧
      ∀ (i : Nat) (h : i + 1 < v.params.N),
        ws[i + 1] = v.params.F * (ws[i] ^^^ (ws[i] >>> (v.params.W - 2))) + BitVec.ofNat v.params.W (i + 1)

/-- Derived from R74: no two neighbouring elements of a filled array are both zero, whatever the seed and
whatever the array held before. -/
def Obligations.FilledArrayHasNoTwoNeighbouringZeros : Prop :=
  ∀ (v : Variant) (a : Word v.W) (ws : Vector (Word v.params.W) v.params.N) (i : Nat)
    (h : i + 1 < v.params.N), ¬ ((fill a ws)[i] = 0 ∧ (fill a ws)[i + 1] = 0)

/-- R73: after SEED, everything a later command can read and every response to any later commands depend on
the seed and those commands alone, not on the state before. -/
def Obligations.OutputsDependOnTheSeedAndTheCommandsAlone : Prop :=
  ∀ (v : Variant) (a b b' : Word v.W) (later : List Instr) (s s' : State),
    (∀ i ∈ later, i.variant = v) → (s.inst v).phase = .idle → (s'.inst v).phase = .idle →
      let t := execAll (.seed v a b :: later) s
      let t' := execAll (.seed v a b' :: later) s'
      (t.inst v).sameCore (t'.inst v) ∧
        ∃ new, (t.inst v).responses = new ++ (s.inst v).responses ∧
          (t'.inst v).responses = new ++ (s'.inst v).responses

/-! ### TWIST (41_twist.md, 20_memory.md) -/

/-- R49: the value each read of iteration `i` returns, old or rewritten by this same TWIST. -/
def Obligations.TwistReadsTheArrayInPlace : Prop :=
  ∀ (P : Params) (ws : Vector (Word P.W) P.N) (i : Fin P.N),
    let cur := twistUpTo ws i i.isLt.le
    let new := twistWords ws
    cur[i] = ws[i] ∧
    (∀ h : i.val + 1 < P.N, cur[nextAddr i] = ws[i.val + 1]) ∧
    (i.val + 1 = P.N → cur[nextAddr i] = new[0]'P.N_pos) ∧
    (∀ h : i.val + P.M < P.N, cur[farAddr i] = ws[i.val + P.M]) ∧
    (∀ _ : P.N ≤ i.val + P.M,
      cur[farAddr i] = new[i.val + P.M - P.N]'(by have := P.M_lt; have := i.isLt; omega))

/-- Derived from R80: the two-array form of TWIST, with `y` as an OR of the masked words. -/
def Obligations.TwistEqualsItsTwoArrayForm : Prop :=
  ∀ (P : Params) (old : Vector (Word P.W) P.N) (i : Fin P.N),
    let new := twistWords old
    let mix := fun h l m : Word P.W =>
      let y := (h &&& P.highMask) ||| (l &&& P.lowMask)
      m ^^^ (y >>> 1) ^^^ (if y.getLsbD 0 then P.A else 0)
    (∀ h : i.val + P.M < P.N,
      new[i] = mix old[i] (old[i.val + 1]'(by have := P.M_pos; omega)) old[i.val + P.M]) ∧
    (∀ (_ : P.N ≤ i.val + P.M) (h : i.val + 1 < P.N),
      new[i] = mix old[i] old[i.val + 1]
        (new[i.val + P.M - P.N]'(by have := P.M_lt; have := i.isLt; omega))) ∧
    (i.val + 1 = P.N →
      new[i] = mix old[i] (new[0]'P.N_pos) (new[P.M - 1]'(by have := P.M_lt; omega)))

/-- Derived from R7 (b), R78 (a), (c): the two masks are disjoint and cover the word, so the two masked terms
never carry; and in both variants `y` is odd exactly when the next word is. -/
def Obligations.TwistTermsNeverCarry : Prop :=
  (∀ P : Params, P.highMask &&& P.lowMask = 0 ∧ P.highMask ||| P.lowMask = BitVec.allOnes P.W ∧
    ∀ cur nxt : Word P.W, twistY cur nxt = (cur &&& P.highMask) ||| (nxt &&& P.lowMask)) ∧
  ∀ (v : Variant) (cur nxt : Word v.params.W), (twistY cur nxt).getLsbD 0 = nxt.getLsbD 0

/-- Derived from R82 (c), (e): TWIST maps the all-zero array to itself. -/
def Obligations.TwistFixesTheZeroArray : Prop :=
  ∀ P : Params, twistWords (Vector.replicate P.N (0 : Word P.W)) = Vector.replicate P.N 0

/-! ### EXTRACT (42_extract.md) -/

/-- R86, R87, R88: on a seeded instance EXTRACT completes. Below `N` it returns the tempered word at the cursor
and changes only the cursor and the ghost counter; at `N` it twists first and returns the tempered first word
of the new array. -/
def Obligations.ExtractReturnsTheTemperedWordAtTheCursor : Prop :=
  ∀ (v : Variant) (a b : Word v.W) (s : State), (s.inst v).seeded = true →
    let P := v.params
    let g := s.inst v
    let tempered := fun y0 : Word P.W =>
      let y1 := y0 ^^^ ((y0 >>> P.U) &&& P.D)
      let y2 := y1 ^^^ ((y1 <<< P.S) &&& P.B)
      let y3 := y2 ^^^ ((y2 <<< P.T) &&& P.C)
      y3 ^^^ (y3 >>> P.L)
    (∀ h : g.index.toNat < P.N,
      exec (.extract v a b) s = .next (s.setInst v
        (({ g with index := g.index + 1, extracts := g.extracts + 1 } : Inst P).respond .ok
          (some (tempered g.words[g.index.toNat]))))) ∧
    (P.N ≤ g.index.toNat →
      exec (.extract v a b) s = .next (s.setInst v
        (({ g with words := twistWords g.words, index := 1, twists := g.twists + 1,
                   extracts := g.extracts + 1 } : Inst P).respond .ok
          (some (tempered ((twistWords g.words)[0]'P.N_pos))))))

/-- Derived from R89: Temper maps 0 to 0 and is linear over exclusive OR. -/
def Obligations.TemperIsLinear : Prop :=
  ∀ (P : Params) (p q : Word P.W), temper (0 : Word P.W) = 0 ∧ temper (p ^^^ q) = temper p ^^^ temper q

/-- Derived from R89: Temper is one-to-one in both variants. -/
def Obligations.TemperIsOneToOne : Prop :=
  ∀ (v : Variant) (p q : Word v.params.W), temper p = temper q → p = q

/-- Derived from R91: after a SEED taken by an idle instance and `k` EXTRACTs, `extracts = k`,
`twists = ceil(k / N)`, and the cursor is `N` for `k = 0` and `k - N*(twists - 1)` for `k >= 1`. -/
def Obligations.TwistRunsExactlyAtTheBoundary : Prop :=
  ∀ (v : Variant) (a b c d : Word v.W) (k : Nat) (s : State), (s.inst v).phase = .idle →
    let N := v.params.N
    let g := (execAll (.seed v a b :: List.replicate k (.extract v c d)) s).inst v
    g.extracts = k ∧ g.twists = (k + N - 1) / N ∧
      (k = 0 → g.index.toNat = N) ∧ (1 ≤ k → g.index.toNat = k - N * (g.twists - 1))

/-! ### NEXT (43_sample.md) -/

/-- R98 (as the body of NEXT, R94): on a seeded instance with a legal divisor, if draw `k` is the first that passes the test, NEXT
completes with `x mod n`, one past that draw, and changes nothing an extraction does not. -/
def Obligations.NextReturnsTheFirstAcceptedDraw : Prop :=
  ∀ (v : Variant) (a b : Word v.W) (s : State) (k : Nat), (s.inst v).seeded = true →
    1 ≤ a.toNat → a.toNat ≤ v.params.MAX → FirstAccepted (s.inst v) a.toNat k →
      exec (.next v a b) s = .next (s.setInst v
        (afterSample (s.inst v) k (BitVec.ofNat v.params.W (drawn (s.inst v) k % a.toNat))))

/-- Derived from R12, R101, R131 (c): NEXT ends exactly when some word of the stream is accepted; otherwise it
stays in SAMPLING and never responds, however long one waits. It ends in the model's own step, whatever the
number of iterations: that `loopBound` is no cap is log entry 5 (DEDUCED). The second clause is about arrays whose
stream has no accepted word; by G5, on which no model may rely, the canonical constants have none. -/
def Obligations.NextEndsExactlyWhenAWordIsAccepted : Prop :=
  ∀ (v : Variant) (a b : Word v.W) (s : State), (s.inst v).seeded = true →
    1 ≤ a.toNat → a.toNat ≤ v.params.MAX →
      ∃ t, exec (.next v a b) s = .next t ∧
        ((t.inst v).phase = .idle ↔
          ∃ k, drawn (s.inst v) k < v.params.MAX - v.params.MAX % a.toNat) ∧
        ((t.inst v).phase ≠ .idle →
          ∀ m, (Inst.wait^[m] (t.inst v)).responses = (s.inst v).responses)

/-- Derived from R103: NEXT is the closure of the iterations of its loop, each still in SAMPLING until the
first accepted draw. -/
def Obligations.NextIsTheClosureOfItsIterations : Prop :=
  ∀ (v : Variant) (a b : Word v.W) (s : State) (k : Nat), (s.inst v).seeded = true →
    1 ≤ a.toNat → a.toNat ≤ v.params.MAX → FirstAccepted (s.inst v) a.toNat k →
      let start : Inst v.params := { s.inst v with job := some ⟨a.toNat, .next⟩ }
      (∀ j ≤ k, ((sampleIter FloatOps.ieee)^[j] start).phase = .sampling) ∧
      exec (.next v a b) s = .next (s.setInst v ((sampleIter FloatOps.ieee)^[k + 1] start))

/-- R99: every result of NEXT is an accepted draw modulo `n`, in `[0, n)`, zero-extended. -/
def Obligations.NextResultIsBelowTheDivisor : Prop :=
  ∀ (v : Variant) (a b x : Word v.W) (s t : State), exec (.next v a b) s = .next t →
    (t.inst v).responses = ⟨.ok, some x⟩ :: (s.inst v).responses →
      x.toNat < a.toNat ∧ x.msb = false ∧
        ∃ k, FirstAccepted (s.inst v) a.toNat k ∧ drawn (s.inst v) k ≤ v.params.MAX ∧
          x.toNat = drawn (s.inst v) k % a.toNat

/-- R96: `LIMIT` is the largest multiple of `n` that does not exceed `MAX`, with its bounds. -/
def Obligations.LimitIsTheLargestMultiple : Prop :=
  ∀ (P : Params) (n : Nat), 1 ≤ n → n ≤ P.MAX →
    limit P n = n * (P.MAX / n) ∧ n ≤ limit P n ∧ limit P n ≤ P.MAX ∧ P.MAX - n < limit P n ∧
      ∀ m, n ∣ m → m ≤ P.MAX → m ≤ limit P n

/-- Derived from R101: the accepted fraction of the `2^W` words is at least a quarter and less than a half. -/
def Obligations.AcceptedFractionIsBetweenQuarterAndHalf : Prop :=
  ∀ (P : Params) (n : Nat), 1 ≤ n → n ≤ P.MAX →
    2 ^ P.W ≤ 4 * limit P n ∧ 2 * limit P n < 2 ^ P.W

/-- Derived from R100: the accepted values fall into the `n` remainder classes in equal numbers. -/
def Obligations.AcceptedValuesAreUnbiased : Prop :=
  ∀ (P : Params) (n r : Nat), 1 ≤ n → n ≤ P.MAX → r < n →
    ((List.range (limit P n)).filter (fun x => x % n = r)).length = limit P n / n

/-- Derived from R102 (c), (d): the bound for a power of two, and for a divisor above half of `MAX`. -/
def Obligations.LimitInTheCornerCases : Prop :=
  ∀ P : Params,
    (∀ k, k ≤ P.W - 2 → limit P (2 ^ k) = 2 ^ (P.W - 1) - 2 ^ k) ∧
    (∀ n, 2 ^ (P.W - 2) ≤ n → n < P.MAX → limit P n = n)

/-! ### NEXTF, RANGE, RANGEF (44_derived.md) -/

/-- Derived from R105: on a seeded instance NEXTF completes with the binary32 pattern of the accepted draw modulo
`CHUNKS`. -/
def Obligations.NextfReturnsTheFirstAcceptedDraw : Prop :=
  ∀ (v : Variant) (a b : Word v.W) (s : State) (k : Nat), (s.inst v).seeded = true →
    FirstAccepted (s.inst v) 16777216 k →
      exec (.nextf v a b) s = .next (s.setInst v
        (afterSample (s.inst v) k ((F32 (drawn (s.inst v) k % 16777216)).setWidth v.params.W)))

/-- R106: `F32(i)` is a finite, non-negative pattern whose value is exactly `i / 2^24` (in units of `2^-149`:
`i * 2^125`), normal with exponent field 103 to 126 unless `i = 0`. -/
def Obligations.F32IsExact : Prop :=
  ∀ i : Nat, i < 2 ^ 24 →
    Binary32.finite (F32 i) = true ∧ Binary32.sign (F32 i) = false ∧
    Binary32.value (F32 i) = (i : Int) * 2 ^ 125 ∧
    (1 ≤ i → 103 ≤ Binary32.expField (F32 i) ∧ Binary32.expField (F32 i) ≤ 126)

/-- Derived from R107 (a): every result of NEXTF is below 1.0, in both variants. -/
def Obligations.NextfResultIsBelowOne : Prop :=
  ∀ (v : Variant) (a b x : Word v.W) (s t : State), exec (.nextf v a b) s = .next t →
    (t.inst v).responses = ⟨.ok, some x⟩ :: (s.inst v).responses → x.toNat ≤ 0x3F7FFFFF

/-- Derived from R108: on a seeded instance with legal bounds RANGE completes with `min` plus the draw modulo
`max - min`. -/
def Obligations.RangeReturnsMinPlusTheFirstAcceptedDraw : Prop :=
  ∀ (v : Variant) (a b : Word v.W) (s : State) (k : Nat), (s.inst v).seeded = true →
    1 ≤ b.toInt - a.toInt → b.toInt - a.toInt ≤ v.params.MAX → FirstAccepted (s.inst v) (b - a).toNat k →
      exec (.range v a b) s = .next (s.setInst v
        (afterSample (s.inst v) k (a + BitVec.ofNat v.params.W (drawn (s.inst v) k % (b - a).toNat))))

/-- Derived from R110: every result of RANGE lies in `[min, max)` in the signed view. -/
def Obligations.RangeResultIsWithinTheBounds : Prop :=
  ∀ (v : Variant) (a b x : Word v.W) (s t : State), exec (.range v a b) s = .next t →
    (t.inst v).responses = ⟨.ok, some x⟩ :: (s.inst v).responses →
      a.toInt ≤ x.toInt ∧ x.toInt < b.toInt

/-- Derived from R111 (a): draw for draw, RANGE returns `min` plus what `NEXT (max - min)` returns from the
same state, and both leave the same generator. -/
def Obligations.RangeIsNextShifted : Prop :=
  ∀ (v : Variant) (a b c : Word v.W) (s : State), (s.inst v).seeded = true →
    1 ≤ b.toInt - a.toInt → b.toInt - a.toInt ≤ v.params.MAX →
      ∃ tn tr, exec (.next v (b - a) c) s = .next tn ∧ exec (.range v a b) s = .next tr ∧
        (tr.inst v).words = (tn.inst v).words ∧ (tr.inst v).index = (tn.inst v).index ∧
        (tr.inst v).seeded = (tn.inst v).seeded ∧ (tr.inst v).phase = (tn.inst v).phase ∧
        (tr.inst v).twists = (tn.inst v).twists ∧ (tr.inst v).extracts = (tn.inst v).extracts ∧
        ∀ x, (tn.inst v).responses = ⟨.ok, some x⟩ :: (s.inst v).responses ↔
          (tr.inst v).responses = ⟨.ok, some (a + x)⟩ :: (s.inst v).responses

/-- Derived from R112, with the IEEE default of R113 (log entry 9): on a seeded instance with legal bounds RANGEF completes with
`nextf() * (max - min) + min`, three operations in this order. -/
def Obligations.RangefReturnsTheRescaledDraw : Prop :=
  ∀ (v : Variant) (a b : Word v.W) (s : State) (k : Nat), (s.inst v).seeded = true →
    let lo : Bits32 := a.extractLsb' 0 32
    let hi : Bits32 := b.extractLsb' 0 32
    Binary32.finite lo = true → Binary32.finite hi = true → Binary32.less lo hi = true →
    Binary32.finite (Binary32.sub hi lo) = true → FirstAccepted (s.inst v) 16777216 k →
      let fr := F32 (drawn (s.inst v) k % 16777216)
      let q := Binary32.add (Binary32.mul fr (Binary32.sub hi lo)) lo
      exec (.rangef v a b) s = .next (s.setInst v (afterSample (s.inst v) k (q.setWidth v.params.W)))

/-- Derived from R114, with the IEEE ordering (log entry 9, PRESUMED): on finite patterns the ordering is that of
the values (so `-0.0` and `+0.0` are equal), and a NaN is below nothing. -/
def Obligations.FloatOrderIsTheOrderOfValues : Prop :=
  ∀ x y : Bits32,
    (Binary32.finite x = true → Binary32.finite y = true →
      (Binary32.less x y = true ↔ Binary32.value x < Binary32.value y)) ∧
    (Binary32.isNaN x = true ∨ Binary32.isNaN y = true → Binary32.less x y = false)

/-- Derived from R113: with the IEEE default (log entry 9, PRESUMED), a finite sum of finite operands is a nearest
pattern to the exact sum. -/
def Obligations.FloatSumIsNearest : Prop :=
  ∀ x y z : Bits32, Binary32.finite x = true → Binary32.finite y = true → Binary32.finite z = true →
    Binary32.finite (Binary32.add x y) = true →
      |Binary32.value x + Binary32.value y - Binary32.value (Binary32.add x y)| ≤
        |Binary32.value x + Binary32.value y - Binary32.value z|

/-- Derived from R115: with the IEEE default of R113 (log entry 9, PRESUMED), the lower bound of RANGEF holds: the
result is no NaN and never below `min`. -/
def Obligations.RangefResultIsNotBelowMin : Prop :=
  ∀ (x y : Bits32) (i : Nat), legalRangeF FloatOps.ieee x y = true → i < 2 ^ 24 →
    let q := affine FloatOps.ieee (F32 i) x y
    Binary32.isNaN q = false ∧ Binary32.value x ≤ Binary32.value q

/-- Derived from R116 (a): with the IEEE default of R113 (log entry 9, PRESUMED), where the stream has an accepted
draw `RANGEF 0.0, 1.0` leaves the state that NEXTF leaves. -/
def Obligations.RangefOverTheUnitIntervalIsNextf : Prop :=
  ∀ (v : Variant) (a b c d : Word v.W) (s : State) (k : Nat), (s.inst v).seeded = true →
    a.extractLsb' 0 32 = 0x00000000#32 → b.extractLsb' 0 32 = 0x3F800000#32 →
    FirstAccepted (s.inst v) 16777216 k → exec (.rangef v a b) s = exec (.nextf v c d) s

/-- Derived from R116 (e): RANGEF with legal bounds consumes exactly the extractions NEXTF would from the same
state. -/
def Obligations.RangefConsumesWhatNextfConsumes : Prop :=
  ∀ (v : Variant) (a b c d : Word v.W) (s : State), (s.inst v).seeded = true →
    legalRangeF FloatOps.ieee (a.extractLsb' 0 32) (b.extractLsb' 0 32) = true →
      ∃ tf tr, exec (.nextf v c d) s = .next tf ∧ exec (.rangef v a b) s = .next tr ∧
        (tr.inst v).words = (tf.inst v).words ∧ (tr.inst v).index = (tf.inst v).index ∧
        (tr.inst v).phase = (tf.inst v).phase ∧ (tr.inst v).twists = (tf.inst v).twists ∧
        (tr.inst v).extracts = (tf.inst v).extracts

/-! ### Frames and whole-machine rules -/

/-- Derived from R26: a command does not change the other instance of this machine, which holds one of each
variant (log entry 1), nor the list of what the caller will present, which is the model's (log entry 3); and what
it does to its own instance does not depend on the other. -/
def Obligations.CommandsOfOneInstanceDoNotTouchTheOther : Prop :=
  ∀ (i : Instr) (s s' t t' : State), exec i s = .next t → exec i s' = .next t' →
    t.caller = s.caller ∧ (∀ v, v ≠ i.variant → t.inst v = s.inst v) ∧
      (s.inst i.variant = s'.inst i.variant → t.inst i.variant = t'.inst i.variant)

/-- Derived from R22, R24, R25, R30: the frame of every command but SEED. The flag stays; at most one response is
added; and as long as no TWIST runs the array stays and the cursor moves up by one for each extraction. That the
count of resets stays is about the model's own counter (log entry 2). -/
def Obligations.ReadingCommandsFrame : Prop :=
  ∀ (i : Instr) (s t : State), i.op ≠ .seed → exec i s = .next t →
    let g := s.inst i.variant
    let g' := t.inst i.variant
    g'.seeded = g.seeded ∧ g'.resets = g.resets ∧
    (g'.responses = g.responses ∨ ∃ r, g'.responses = r :: g.responses) ∧
    g.extracts ≤ g'.extracts ∧ g.twists ≤ g'.twists ∧
    (g'.twists = g.twists →
      g'.words = g.words ∧ g'.index.toNat = g.index.toNat + (g'.extracts - g.extracts))

/-- Derived from R35: SEED makes an instance well-formed and seeded from any state, and every command keeps it
so. -/
def Obligations.CommandsKeepWellFormedSeededStates : Prop :=
  ∀ (i : Instr) (s t : State), exec i s = .next t →
    i.op = .seed ∨ (s.inst i.variant).wellFormedSeeded → (t.inst i.variant).wellFormedSeeded

/-- Derived from R24, R30, R33, R91, R95, R122: every step from every state keeps the invariant. -/
def Obligations.EveryStepKeepsTheInvariant : Prop :=
  ∀ s t : State, s.Inv → step s = .next t → t.Inv

/-- The state after reset meets the invariant. -/
def Obligations.ResetMeetsTheInvariant : Prop := State.reset.Inv

/-! ### Runs (70_reset_and_hazards.md R145) -/

/-- Derived from R145, R146: the run of a list of commands on an idle instance, as the steps of the machine make
it when the caller presents the list. The run has an outcome exactly when after some number of steps every command
has responded; then the responses and the triple those steps leave are the outcome. That one step takes each
command, so that as many steps as commands reach the outcome, is the model's step size, which R28 permits (log
entry 4); the list of events is the model's (log entry 3). -/
def Obligations.RunsEndWhenEveryCommandHasResponded : Prop :=
  ∀ (v : Variant) (cmds : List (CommandWord v)) (s : State),
    (s.inst v).phase = .idle → s.caller = cmds.map (.command v) →
      ((runOutcome v cmds s).isSome = true ↔
        ∃ m, ((stepAll m s).inst v).responses.length = (s.inst v).responses.length + cmds.length) ∧
      (∀ o, runOutcome v cmds s = some o →
        let t := stepAll cmds.length s
        t.caller = [] ∧ (t.inst v).phase = .idle ∧ (t.inst v).outcome = o ∧
          o.responses.length = (s.inst v).responses.length + cmds.length)

/-- Derived from R98, R101: the rejection loop of every sampling command, for every constant table and whatever
float operations finish it, ends exactly when some word of the stream is accepted; otherwise further iterations add
no response. That `loopBound` is no cap is log entry 5 (DEDUCED). -/
def Obligations.SamplingLoopEndsExactlyWhenAWordIsAccepted : Prop :=
  ∀ (P : Params) (ops : FloatOps) (n : Nat) (fin : Finish P) (g : Inst P),
    let h := sample ops n fin g
    (h.phase = .idle ↔ ∃ k, drawn g k < P.MAX - P.MAX % n) ∧
    (h.phase = .idle → ∃ x, h.responses = ⟨.ok, some x⟩ :: g.responses) ∧
    (h.phase ≠ .idle → ∀ m, ((sampleIter ops)^[m] h).responses = g.responses)
end

