-- ==== Sys2Proof/Laws/Decode.lean ====
section
/-! SUPPORT. The fields of a command word read back (R56). -/

namespace Sys2Proof

/-- The `op` field of `op ‖ a ‖ b`. -/
theorem opField_append {v : Variant} (x : BitVec 3) (a b : Word v.W) :
    opField (v := v) (x ++ (a ++ b)) = x := by
  ext i hi
  simp only [opField, BitVec.getElem_extractLsb', BitVec.getLsbD_append]
  simp [show ¬ (v.W + v.W + i < v.W + v.W) by omega, BitVec.getLsbD_eq_getElem hi]

/-- The `a` field of `op ‖ a ‖ b`. -/
theorem aField_append {v : Variant} (x : BitVec 3) (a b : Word v.W) :
    aField (v := v) (x ++ (a ++ b)) = a := by
  ext i hi
  simp only [aField, BitVec.getElem_extractLsb', BitVec.getLsbD_append]
  simp [show v.W + i < v.W + v.W by omega, BitVec.getLsbD_eq_getElem hi]

/-- The `b` field of `op ‖ a ‖ b`. -/
theorem bField_append {v : Variant} (x : BitVec 3) (a b : Word v.W) :
    bField (v := v) (x ++ (a ++ b)) = b := by
  ext i hi
  simp only [bField, BitVec.getElem_extractLsb', BitVec.getLsbD_append]
  simp [show i < v.W + v.W by omega, hi]

/-- No two operations share a code, and every code is read back (R57). -/
@[simp] theorem Op.ofField_code (o : Op) : Op.ofField o.code = o := by cases o <;> rfl

theorem Op.code_ofField (x : BitVec 3) : (Op.ofField x).code = x := by
  revert x; decide

@[simp] theorem Op.op_instr (o : Op) (v : Variant) (a b : Word v.W) : (o.instr v a b).op = o := by
  cases o <;> rfl

@[simp] theorem Op.variant_instr (o : Op) (v : Variant) (a b : Word v.W) : (o.instr v a b).variant = v := by
  cases o <;> rfl

end Sys2Proof
end

