-- ==== Sys2Proof/Laws/State.lean ====
section
/-! SUPPORT. The small lemmas of the state's updates: one per field per update. -/

namespace Sys2Proof.Machine

variable {P : Params}

/-! ### Instances of the machine -/

@[simp] theorem State.inst_setInst (s : State) (v : Variant) (g : Inst v.params) :
    (s.setInst v g).inst v = g := by cases v <;> rfl

theorem State.inst_setInst_of_ne (s : State) {v v' : Variant} (g : Inst v.params) (h : v' ≠ v) :
    (s.setInst v g).inst v' = s.inst v' := by
  cases v <;> cases v' <;> first | rfl | exact absurd rfl h

@[simp] theorem State.caller_setInst (s : State) (v : Variant) (g : Inst v.params) :
    (s.setInst v g).caller = s.caller := by cases v <;> rfl

@[simp] theorem State.setInst_setInst (s : State) (v : Variant) (g g' : Inst v.params) :
    (s.setInst v g).setInst v g' = s.setInst v g' := by cases v <;> rfl

@[simp] theorem State.setInst_inst (s : State) (v : Variant) : s.setInst v (s.inst v) = s := by
  cases v <;> rfl

@[simp] theorem State.inst_onInst (s : State) (v : Variant) (f : Inst v.params → Inst v.params) :
    (s.onInst v f).inst v = f (s.inst v) := by simp [State.onInst]

theorem State.inst_onInst_of_ne (s : State) {v v' : Variant} (f : Inst v.params → Inst v.params)
    (h : v' ≠ v) : (s.onInst v f).inst v' = s.inst v' := State.inst_setInst_of_ne s _ h

@[simp] theorem State.caller_onInst (s : State) (v : Variant) (f : Inst v.params → Inst v.params) :
    (s.onInst v f).caller = s.caller := by simp [State.onInst]

@[simp] theorem State.inst_taken (s : State) (rest : List Event) (v : Variant) :
    (s.taken rest).inst v = s.inst v := by cases v <;> rfl

@[simp] theorem State.caller_taken (s : State) (rest : List Event) : (s.taken rest).caller = rest := rfl

/-- Taking an event and updating an instance commute. -/
theorem State.onInst_taken (s : State) (rest : List Event) (v : Variant) (f : Inst v.params → Inst v.params) :
    (s.taken rest).onInst v f = (s.onInst v f).taken rest := by cases v <;> rfl

@[simp] theorem State.taken_taken (s : State) (rest rest' : List Event) :
    (s.taken rest).taken rest' = s.taken rest' := rfl

@[simp] theorem State.taken_caller (s : State) : s.taken s.caller = s := rfl

theorem State.ext_inst {s t : State} (h : ∀ v, s.inst v = t.inst v) (hc : s.caller = t.caller) : s = t := by
  have h1 : s.mt32 = t.mt32 := h .mt32
  have h2 : s.mt64 = t.mt64 := h .mt64
  cases s; cases t; simp_all

/-! ### respond -/

@[simp] theorem Inst.respond_words (g : Inst P) (st r) : (g.respond st r).words = g.words := rfl
@[simp] theorem Inst.respond_index (g : Inst P) (st r) : (g.respond st r).index = g.index := rfl
@[simp] theorem Inst.respond_seeded (g : Inst P) (st r) : (g.respond st r).seeded = g.seeded := rfl
@[simp] theorem Inst.respond_job (g : Inst P) (st r) : (g.respond st r).job = g.job := rfl
@[simp] theorem Inst.respond_twists (g : Inst P) (st r) : (g.respond st r).twists = g.twists := rfl
@[simp] theorem Inst.respond_extracts (g : Inst P) (st r) : (g.respond st r).extracts = g.extracts := rfl
@[simp] theorem Inst.respond_resets (g : Inst P) (st r) : (g.respond st r).resets = g.resets := rfl
@[simp] theorem Inst.respond_responses (g : Inst P) (st r) :
    (g.respond st r).responses = ⟨st, r⟩ :: g.responses := rfl

/-! ### reset -/

@[simp] theorem Inst.atReset_seeded (k : Nat) : (Inst.atReset P k).seeded = false := rfl
@[simp] theorem Inst.atReset_job (k : Nat) : (Inst.atReset P k).job = none := rfl
@[simp] theorem Inst.atReset_responses (k : Nat) : (Inst.atReset P k).responses = [] := rfl
@[simp] theorem Inst.atReset_twists (k : Nat) : (Inst.atReset P k).twists = 0 := rfl
@[simp] theorem Inst.atReset_extracts (k : Nat) : (Inst.atReset P k).extracts = 0 := rfl
@[simp] theorem Inst.atReset_resets (k : Nat) : (Inst.atReset P k).resets = k := rfl

theorem State.inst_reset (v : Variant) : State.reset.inst v = Inst.atReset v.params 0 := by cases v <;> rfl

/-! ### seedCommand -/

@[simp] theorem seedCommand_words (a : Word P.W) (g : Inst P) : (seedCommand a g).words = fill a g.words := rfl
@[simp] theorem seedCommand_index (a : Word P.W) (g : Inst P) :
    (seedCommand a g).index = BitVec.ofNat P.indexBits P.N := rfl
@[simp] theorem seedCommand_seeded (a : Word P.W) (g : Inst P) : (seedCommand a g).seeded = true := rfl
@[simp] theorem seedCommand_job (a : Word P.W) (g : Inst P) : (seedCommand a g).job = g.job := rfl
@[simp] theorem seedCommand_twists (a : Word P.W) (g : Inst P) : (seedCommand a g).twists = 0 := rfl
@[simp] theorem seedCommand_extracts (a : Word P.W) (g : Inst P) : (seedCommand a g).extracts = 0 := rfl
@[simp] theorem seedCommand_resets (a : Word P.W) (g : Inst P) : (seedCommand a g).resets = g.resets := rfl
@[simp] theorem seedCommand_responses (a : Word P.W) (g : Inst P) :
    (seedCommand a g).responses = ⟨.ok, none⟩ :: g.responses := rfl

/-! ### twist and extract -/

@[simp] theorem twist_words (g : Inst P) : (twist g).words = twistWords g.words := rfl
@[simp] theorem twist_index (g : Inst P) : (twist g).index = 0 := rfl
@[simp] theorem twist_seeded (g : Inst P) : (twist g).seeded = g.seeded := rfl
@[simp] theorem twist_job (g : Inst P) : (twist g).job = g.job := rfl
@[simp] theorem twist_responses (g : Inst P) : (twist g).responses = g.responses := rfl
@[simp] theorem twist_twists (g : Inst P) : (twist g).twists = g.twists + 1 := rfl
@[simp] theorem twist_extracts (g : Inst P) : (twist g).extracts = g.extracts := rfl
@[simp] theorem twist_resets (g : Inst P) : (twist g).resets = g.resets := rfl

/-- Everything an extraction can do (R86, R87): below `N` it reads at the cursor and advances it; at or above
`N` it twists first and then reads word 0. -/
theorem extract_cases (g : Inst P) :
    (∃ h : g.index.toNat < P.N, extract g = (temper g.words[g.index.toNat],
        { g with index := g.index + 1, extracts := g.extracts + 1 })) ∨
    (P.N ≤ g.index.toNat ∧ extract g = (temper ((twistWords g.words)[0]'P.N_pos),
        { g with words := twistWords g.words, index := 0 + 1, twists := g.twists + 1,
                 extracts := g.extracts + 1 })) := by
  by_cases h : g.index.toNat < P.N
  · exact .inl ⟨h, by simp [extract, h, extractAt]⟩
  · exact .inr ⟨Nat.le_of_not_lt h, by simp [extract, h, extractAt, twist]⟩

@[simp] theorem extract_seeded (g : Inst P) : (extract g).2.seeded = g.seeded := by
  obtain ⟨_, h⟩ | ⟨_, h⟩ := extract_cases g <;> rw [h]
@[simp] theorem extract_job (g : Inst P) : (extract g).2.job = g.job := by
  obtain ⟨_, h⟩ | ⟨_, h⟩ := extract_cases g <;> rw [h]
@[simp] theorem extract_responses (g : Inst P) : (extract g).2.responses = g.responses := by
  obtain ⟨_, h⟩ | ⟨_, h⟩ := extract_cases g <;> rw [h]
@[simp] theorem extract_resets (g : Inst P) : (extract g).2.resets = g.resets := by
  obtain ⟨_, h⟩ | ⟨_, h⟩ := extract_cases g <;> rw [h]
@[simp] theorem extract_extracts (g : Inst P) : (extract g).2.extracts = g.extracts + 1 := by
  obtain ⟨_, h⟩ | ⟨_, h⟩ := extract_cases g <;> rw [h]

/-- The cursor register is wide enough: `N` read back from it is `N` (R23). -/
@[simp] theorem toNat_index_N (P : Params) : (BitVec.ofNat P.indexBits P.N).toNat = P.N := by
  simp [Nat.mod_eq_of_lt P.N_fits]

/-- Below `N` the cursor's advance does not wrap (R24). -/
theorem toNat_index_succ (x : BitVec P.indexBits) (h : x.toNat < P.N) : (x + 1).toNat = x.toNat + 1 := by
  have := P.N_fits
  have h1 : 1 < 2 ^ P.indexBits := by have := P.N_pos; omega
  have h2 : (1 : BitVec P.indexBits).toNat = 1 := (BitVec.toNat_ofNat 1 _).trans (Nat.mod_eq_of_lt h1)
  rw [BitVec.toNat_add, h2, Nat.mod_eq_of_lt (by omega)]

/-- After a TWIST the advanced cursor is 1. -/
@[simp] theorem toNat_index_one (P : Params) : (0 + 1 : BitVec P.indexBits).toNat = 1 := by
  rw [toNat_index_succ 0 (by simpa using P.N_pos)]; simp

end Sys2Proof.Machine
end

