-- ==== Sys2Proof/Laws/Sample.lean ====
section
/-! SUPPORT. The rejection loop: which state it ends in, and that a loop which has rejected `loopBound` words never ends. -/

namespace Sys2Proof.Machine

variable {P : Params}

/-! ### The stream of extractions -/

theorem afterExtracts_succ' (g : Inst P) (k : Nat) :
    afterExtracts (k + 1) g = afterExtracts k (extract g).2 := by
  induction k with
  | zero => rfl
  | succ k ih => rw [afterExtracts, ih]; rfl

theorem drawn_succ (g : Inst P) (k : Nat) : drawn g (k + 1) = drawn (extract g).2 k := by
  rw [drawn, afterExtracts_succ', drawn]

@[simp] theorem afterExtracts_seeded (g : Inst P) (k : Nat) : (afterExtracts k g).seeded = g.seeded := by
  induction k with
  | zero => rfl
  | succ k ih => simp [afterExtracts, ih]

@[simp] theorem afterExtracts_responses (g : Inst P) (k : Nat) :
    (afterExtracts k g).responses = g.responses := by
  induction k with
  | zero => rfl
  | succ k ih => simp [afterExtracts, ih]

@[simp] theorem afterExtracts_resets (g : Inst P) (k : Nat) : (afterExtracts k g).resets = g.resets := by
  induction k with
  | zero => rfl
  | succ k ih => simp [afterExtracts, ih]

@[simp] theorem afterExtracts_job (g : Inst P) (k : Nat) : (afterExtracts k g).job = g.job := by
  induction k with
  | zero => rfl
  | succ k ih => simp [afterExtracts, ih]

@[simp] theorem afterExtracts_extracts (g : Inst P) (k : Nat) :
    (afterExtracts k g).extracts = g.extracts + k := by
  induction k with
  | zero => rfl
  | succ k ih => simp [afterExtracts, ih, Nat.add_assoc]

/-- An extraction reads `words` and `index` alone, and leaves the rest but the ghost counters (R87). -/
theorem extract_withJob (g : Inst P) (j : Option (Job P)) :
    extract { g with job := j } = ((extract g).1, { (extract g).2 with job := j }) := by
  obtain ⟨h, e⟩ | ⟨h, e⟩ := extract_cases g
  · rw [e]; simp [extract, h, extractAt]
  · rw [e]; simp [extract, Nat.not_lt.mpr h, extractAt, twist]

theorem afterExtracts_withJob (g : Inst P) (j : Option (Job P)) (k : Nat) :
    afterExtracts k { g with job := j } = { afterExtracts k g with job := j } := by
  induction k with
  | zero => rfl
  | succ k ih => rw [afterExtracts, ih, extract_withJob]; rfl

@[simp] theorem drawn_withJob (g : Inst P) (j : Option (Job P)) (k : Nat) :
    drawn { g with job := j } k = drawn g k := by
  rw [drawn, afterExtracts_withJob, extract_withJob, drawn]

/-! ### Running the loop -/

theorem runSample_idle (ops : FloatOps) (k : Nat) (g : Inst P) (h : g.job = none) : runSample ops k g = g := by
  cases k with
  | zero => rfl
  | succ k => simp [runSample, Inst.busy, h]

theorem sampleIter_accept (ops : FloatOps) (g : Inst P) (j : Job P) (hj : g.job = some j)
    (h : drawn g 0 < limit P j.n) :
    sampleIter ops g = afterSample g 0 (j.finish.result ops (drawn g 0 % j.n)) := by
  simp only [drawn, afterExtracts] at h
  simp [sampleIter, hj, h, afterSample, afterExtracts, drawn]

theorem sampleIter_reject (ops : FloatOps) (g : Inst P) (j : Job P) (hj : g.job = some j)
    (h : limit P j.n ≤ drawn g 0) : sampleIter ops g = (extract g).2 := by
  simp only [drawn, afterExtracts] at h
  simp [sampleIter, hj, Nat.not_lt.mpr h]

/-- The loop ends at the first accepted word, one past it (R98, R152). -/
theorem runSample_firstAccepted (ops : FloatOps) (j : Job P) :
    ∀ (k fuel : Nat) (g : Inst P), g.job = some j → k < fuel → FirstAccepted g j.n k →
      runSample ops fuel g = afterSample g k (j.finish.result ops (drawn g k % j.n)) := by
  intro k
  induction k with
  | zero =>
    intro fuel g hj hk h
    obtain ⟨f, rfl⟩ : ∃ f, fuel = f + 1 := ⟨fuel - 1, by omega⟩
    rw [runSample, Inst.busy, hj, Option.isSome_some, if_pos rfl, sampleIter_accept ops g j hj h.1]
    exact runSample_idle _ _ _ rfl
  | succ k ih =>
    intro fuel g hj hk h
    obtain ⟨f, rfl⟩ : ∃ f, fuel = f + 1 := ⟨fuel - 1, by omega⟩
    rw [runSample, Inst.busy, hj, Option.isSome_some, if_pos rfl,
      sampleIter_reject ops g j hj (h.2 0 (by omega)),
      ih f (extract g).2 (by simpa using hj) (by omega)
        ⟨by simpa [drawn_succ] using h.1, fun i hi => by simpa [drawn_succ] using h.2 (i + 1) (by omega)⟩]
    rw [afterSample, ← afterExtracts_succ', ← drawn_succ]; rfl

/-- While every word is rejected the loop makes one extraction an iteration (R98). -/
theorem runSample_rejected (ops : FloatOps) (j : Job P) :
    ∀ (fuel : Nat) (g : Inst P), g.job = some j → (∀ k < fuel, limit P j.n ≤ drawn g k) →
      runSample ops fuel g = afterExtracts fuel g := by
  intro fuel
  induction fuel with
  | zero => intros; rfl
  | succ f ih =>
    intro g hj h
    rw [runSample, Inst.busy, hj, Option.isSome_some, if_pos rfl,
      sampleIter_reject ops g j hj (h 0 (by omega)),
      ih (extract g).2 (by simpa using hj) (fun k hk => by simpa [drawn_succ] using h (k + 1) (by omega)),
      afterExtracts_succ']

/-! ### A loop that has rejected `loopBound` words never ends -/

/-- What an extraction reads: the array and the cursor. -/
abbrev CoreState (P : Params) := Vector (Word P.W) P.N × BitVec P.indexBits

def Inst.core (g : Inst P) : CoreState P := (g.words, g.index)

/-- One extraction of the array and the cursor alone. -/
def coreNext (c : CoreState P) : Word P.W × CoreState P :=
  let r := extract (⟨c.1, c.2, true, none, [], 0, 0, 0⟩ : Inst P)
  (r.1, r.2.core)

theorem extract_core (g : Inst P) : ((extract g).1, (extract g).2.core) = coreNext g.core := by
  obtain ⟨h, e⟩ | ⟨h, e⟩ := extract_cases g
  · rw [e]; simp [coreNext, Inst.core, extract, h, extractAt]
  · rw [e]; simp [coreNext, Inst.core, extract, Nat.not_lt.mpr h, extractAt, twist]

theorem core_afterExtracts (g : Inst P) (k : Nat) :
    (afterExtracts k g).core = (fun c => (coreNext c).2)^[k] g.core := by
  induction k with
  | zero => rfl
  | succ k ih =>
    rw [Function.iterate_succ_apply', ← ih, ← extract_core]; rfl

theorem drawn_eq_core (g : Inst P) (k : Nat) :
    drawn g k = wordValue (coreNext ((fun c => (coreNext c).2)^[k] g.core)).1 := by
  rw [← core_afterExtracts, ← extract_core]; rfl

/-- An array and a cursor as numbers, to count them. -/
def CoreState.toFin (c : CoreState P) : (Fin P.N → Fin (2 ^ P.W)) × Fin (2 ^ P.indexBits) :=
  (fun i => c.1[i].toFin, c.2.toFin)

theorem CoreState.toFin_injective : Function.Injective (CoreState.toFin (P := P)) := by
  rintro ⟨a, x⟩ ⟨b, y⟩ h
  simp only [CoreState.toFin, Prod.mk.injEq] at h
  obtain ⟨h1, h2⟩ := h
  have : a = b := by
    ext1 i hi
    exact BitVec.toFin_inj.mp (congrFun h1 ⟨i, hi⟩)
  rw [this, BitVec.toFin_inj.mp h2]

/-- Two of the first `loopBound + 1` states of a stream have the same array and cursor. -/
theorem exists_core_repeat (g : Inst P) :
    ∃ i j, i < j ∧ j ≤ loopBound P ∧ (afterExtracts i g).core = (afterExtracts j g).core := by
  let f : Fin (loopBound P + 1) → (Fin P.N → Fin (2 ^ P.W)) × Fin (2 ^ P.indexBits) :=
    fun k => (afterExtracts k g).core.toFin
  have hcard : Fintype.card ((Fin P.N → Fin (2 ^ P.W)) × Fin (2 ^ P.indexBits)) <
      Fintype.card (Fin (loopBound P + 1)) := by
    rw [Fintype.card_fin, Fintype.card_prod, Fintype.card_fun, Fintype.card_fin, Fintype.card_fin,
      Fintype.card_fin, ← pow_mul, ← pow_add]
    exact Nat.lt_succ_self _
  obtain ⟨a, b, hab, h⟩ := Fintype.exists_ne_map_eq_of_card_lt f hcard
  have hc := CoreState.toFin_injective h
  rcases lt_or_gt_of_ne hab with hlt | hlt
  · exact ⟨a, b, hlt, by omega, hc⟩
  · exact ⟨b, a, hlt, by omega, hc.symm⟩

/-- Past `loopBound` no new word is drawn: if the first `loopBound` words are rejected, all are (R101). -/
theorem rejected_forever (g : Inst P) (L : Nat) (h : ∀ k < loopBound P, L ≤ drawn g k) (k : Nat) :
    L ≤ drawn g k := by
  obtain ⟨i, j, hij, hj, hc⟩ := exists_core_repeat g
  induction k using Nat.strong_induction_on with
  | _ k ih =>
    by_cases hk : k < loopBound P
    · exact h k hk
    · have hback : drawn g k = drawn g (k - (j - i)) := by
        rw [drawn_eq_core, drawn_eq_core]
        rw [core_afterExtracts, core_afterExtracts] at hc
        have e1 : k = (k - j) + j := by omega
        have e2 : k - (j - i) = (k - j) + i := by omega
        rw [e2]
        conv_lhs => rw [e1]
        rw [Function.iterate_add_apply, Function.iterate_add_apply, hc]
      rw [hback]
      exact ih _ (by omega)

/-- If any word of the stream is accepted, the first accepted one comes within `loopBound`. -/
theorem firstAccepted_lt (g : Inst P) (n k : Nat) (h : FirstAccepted g n k) : k < loopBound P := by
  by_contra hk
  have := rejected_forever g (limit P n) (fun j hj => h.2 j (by omega)) k
  exact absurd h.1 (Nat.not_lt.mpr this)

theorem exists_firstAccepted (g : Inst P) (n k : Nat) (h : drawn g k < limit P n) :
    ∃ k, FirstAccepted g n k := by
  classical
  have hex : ∃ k, drawn g k < limit P n := ⟨k, h⟩
  exact ⟨Nat.find hex, Nat.find_spec hex, fun j hj => Nat.not_lt.mp (Nat.find_min hex hj)⟩

/-- A sampling command whose stream has an accepted word ends at the first (R98). -/
theorem sample_firstAccepted (ops : FloatOps) (n : Nat) (fin : Finish P) (g : Inst P) (k : Nat)
    (h : FirstAccepted g n k) :
    sample ops n fin g = afterSample g k (fin.result ops (drawn g k % n)) := by
  rw [sample, runSample_firstAccepted ops ⟨n, fin⟩ k _ _ rfl (firstAccepted_lt g n k h)
    (by simpa [FirstAccepted] using h)]
  simp only [afterSample, afterExtracts_withJob, drawn_withJob]

/-- A sampling command whose stream has none stays in SAMPLING (R101). -/
theorem sample_noneAccepted (ops : FloatOps) (n : Nat) (fin : Finish P) (g : Inst P)
    (h : ∀ k, limit P n ≤ drawn g k) :
    sample ops n fin g = { afterExtracts (loopBound P) g with job := some ⟨n, fin⟩ } := by
  rw [sample, runSample_rejected ops ⟨n, fin⟩ _ _ rfl (by simpa using fun k _ => h k), afterExtracts_withJob]

/-- Everything a sampling command's loop can do. -/
theorem sample_cases (ops : FloatOps) (n : Nat) (fin : Finish P) (g : Inst P) :
    (∃ k, FirstAccepted g n k ∧ sample ops n fin g = afterSample g k (fin.result ops (drawn g k % n))) ∨
    ((∀ k, limit P n ≤ drawn g k) ∧
      sample ops n fin g = { afterExtracts (loopBound P) g with job := some ⟨n, fin⟩ }) := by
  by_cases h : ∃ k, drawn g k < limit P n
  · obtain ⟨k, hk⟩ := h
    obtain ⟨k, hk⟩ := exists_firstAccepted g n k hk
    exact .inl ⟨k, hk, sample_firstAccepted ops n fin g k hk⟩
  · have h' : ∀ k, limit P n ≤ drawn g k := fun k => Nat.not_lt.mp fun hk => h ⟨k, hk⟩
    exact .inr ⟨h', sample_noneAccepted ops n fin g h'⟩

theorem drawn_afterExtracts (g : Inst P) (m k : Nat) : drawn (afterExtracts m g) k = drawn g (k + m) := by
  induction m generalizing k with
  | zero => rfl
  | succ m ih =>
    rw [show afterExtracts (m + 1) g = (extract (afterExtracts m g)).2 from rfl, ← drawn_succ, ih]
    congr 1; omega

/-- A loop whose every word is rejected only extracts, whatever the number of iterations (R101). -/
theorem iterate_sampleIter_rejected (ops : FloatOps) (g : Inst P) (j : Job P) (hj : g.job = some j)
    (h : ∀ k, limit P j.n ≤ drawn g k) (m : Nat) : (sampleIter ops)^[m] g = afterExtracts m g := by
  induction m with
  | zero => rfl
  | succ m ih =>
    rw [Function.iterate_succ_apply', ih]
    exact sampleIter_reject ops _ j (by simpa using hj) (h m)

end Sys2Proof.Machine
end

