-- ==== Sys2Proof/Laws/Words.lean ====
section
/-! SUPPORT. What Fill and TWIST leave in each element of the state array. -/

namespace Sys2Proof.Machine

variable {P : Params}

/-! ### Fill -/

/-- The word at `i` after Fill from the seed `a`: a function of `a` and `i` alone (R71). -/
def fillWord (a : Word P.W) : Nat → Word P.W
  | 0 => a
  | i + 1 => fillNext (fillWord a i) (i + 1)

theorem fillUpTo_getElem (a : Word P.W) (ws : Vector (Word P.W) P.N) :
    ∀ (k : Nat) (hk : k < P.N) (i : Nat) (hi : i ≤ k),
      (fillUpTo a ws k hk)[i] = fillWord a i := by
  intro k
  induction k with
  | zero => intro hk i hi; obtain rfl : i = 0 := by omega
            simp [fillUpTo, fillWord]
  | succ j ih =>
    intro hk i hi
    have hj := ih (by omega)
    simp only [fillUpTo, fillStep]
    by_cases h : i = j + 1
    · subst h
      rw [Vector.getElem_set_self, hj j (Nat.le_refl _), fillWord]
    · rw [Vector.getElem_set_ne _ _ (by omega), hj i (by omega)]

theorem fill_getElem (a : Word P.W) (ws : Vector (Word P.W) P.N) (i : Nat) (hi : i < P.N) :
    (fill a ws)[i] = fillWord a i :=
  fillUpTo_getElem a ws _ _ i (by omega)

/-- Fill reads nothing it has not written (R71, R73). -/
theorem fill_congr (a : Word P.W) (ws ws' : Vector (Word P.W) P.N) : fill a ws = fill a ws' := by
  ext1 i hi
  rw [fill_getElem, fill_getElem]

/-! ### TWIST -/

/-- Iteration `k` is the first to write element `k`: before it, that element and all above are old (R49). -/
theorem twistUpTo_getElem_of_le (ws : Vector (Word P.W) P.N) :
    ∀ (k : Nat) (hk : k ≤ P.N) (i : Nat) (hi : i < P.N), k ≤ i → (twistUpTo ws k hk)[i] = ws[i] := by
  intro k
  induction k with
  | zero => intros; rfl
  | succ j ih =>
    intro hk i hi hki
    simp only [twistUpTo, twistStep]
    rw [Vector.getElem_set_ne _ _ (by simp; omega), ih (by omega) i hi (by omega)]

/-- Once written, an element is not written again by the same TWIST. -/
theorem twistUpTo_getElem_stable (ws : Vector (Word P.W) P.N) (k i : Nat) (hi : i < k) :
    ∀ (m : Nat) (hm : m ≤ P.N) (hkm : k ≤ m),
      (twistUpTo ws m hm)[i] = (twistUpTo ws k (by omega))[i] := by
  intro m
  induction m with
  | zero => intro _ _; omega
  | succ j ih =>
    intro hm hkm
    by_cases h : k = j + 1
    · subst h; rfl
    · simp only [twistUpTo, twistStep]
      rw [Vector.getElem_set_ne _ _ (by simp; omega), ih (by omega) (by omega)]

/-- Below iteration `k` the array is already the one TWIST leaves (R49). -/
theorem twistUpTo_getElem_of_lt (ws : Vector (Word P.W) P.N) (k : Nat) (hk : k ≤ P.N) (i : Nat) (hi : i < k) :
    (twistUpTo ws k hk)[i] = (twistWords ws)[i] :=
  (twistUpTo_getElem_stable ws k i hi P.N (Nat.le_refl _) hk).symm

/-- Element `i` of the new array, from the three words iteration `i` reads in place (R76). -/
theorem twistWords_getElem (ws : Vector (Word P.W) P.N) (i : Fin P.N) :
    (twistWords ws)[i] =
      twistMix (twistUpTo ws i i.isLt.le)[i] (twistUpTo ws i i.isLt.le)[nextAddr i]
        (twistUpTo ws i i.isLt.le)[farAddr i] := by
  have h := twistUpTo_getElem_of_lt ws (i + 1) i.isLt i (by omega)
  simp only [Fin.getElem_fin] at h ⊢
  rw [← h]
  simp [twistUpTo, twistStep]

end Sys2Proof.Machine
end

