-- ==== Sys2Proof/Laws/Exec.lean ====
section
/-! SUPPORT. What `exec` and `step` can do, said once: the inversion lemmas that frames and invariants are derived from. -/

namespace Sys2Proof.Machine

variable {P : Params}

/-- What a command does to the instance it is presented to. -/
def command : (i : Instr) → Inst i.variant.params → Inst i.variant.params
  | .seed _ a _ => seedCommand a
  | .extract _ _ _ => guarded true extractBody
  | .next _ a _ => guarded (legalDivisor a) (sample floatOps (uval a) .next)
  | .nextf _ _ _ => guarded true (sample floatOps CHUNKS .nextf)
  | .range _ a b => guarded (legalRange a b) (sample floatOps (uval (rangeDivisor a b)) (.range a))
  | .rangef _ a b => guarded (legalRangeF floatOps (floatOperand a) (floatOperand b))
      (sample floatOps CHUNKS (.rangef (floatOperand a) (floatOperand b)))
  | .reserved000 _ _ _ => (Inst.raise · .illegalCommand)
  | .reserved111 _ _ _ => (Inst.raise · .illegalCommand)

/-- Every command answers a next state, in which its own instance alone has changed (R26). -/
theorem exec_eq (i : Instr) (s : State) : exec i s = .next (s.onInst i.variant (command i)) := by
  cases i <;> rfl

/-! One equation per command, each on its own instance. -/

theorem exec_seed (v : Variant) (a b : Word v.W) (s : State) :
    exec (.seed v a b) s = .next (s.setInst v (seedCommand a (s.inst v))) := rfl

theorem exec_extract (v : Variant) (a b : Word v.W) (s : State) :
    exec (.extract v a b) s = .next (s.setInst v (guarded true extractBody (s.inst v))) := rfl

theorem exec_next (v : Variant) (a b : Word v.W) (s : State) :
    exec (.next v a b) s = .next (s.setInst v
      (guarded (legalDivisor a) (sample floatOps (uval a) .next) (s.inst v))) := rfl

theorem exec_nextf (v : Variant) (a b : Word v.W) (s : State) :
    exec (.nextf v a b) s = .next (s.setInst v
      (guarded true (sample floatOps CHUNKS .nextf) (s.inst v))) := rfl

theorem exec_range (v : Variant) (a b : Word v.W) (s : State) :
    exec (.range v a b) s = .next (s.setInst v
      (guarded (legalRange a b) (sample floatOps (uval (rangeDivisor a b)) (.range a)) (s.inst v))) := rfl

theorem exec_rangef (v : Variant) (a b : Word v.W) (s : State) :
    exec (.rangef v a b) s = .next (s.setInst v
      (guarded (legalRangeF floatOps (floatOperand a) (floatOperand b))
        (sample floatOps CHUNKS (.rangef (floatOperand a) (floatOperand b))) (s.inst v))) := rfl

theorem exec_reserved000 (v : Variant) (a b : Word v.W) (s : State) :
    exec (.reserved000 v a b) s = .next (s.setInst v ((s.inst v).respond .illegalCommand none)) := rfl

theorem exec_reserved111 (v : Variant) (a b : Word v.W) (s : State) :
    exec (.reserved111 v a b) s = .next (s.setInst v ((s.inst v).respond .illegalCommand none)) := rfl

/-- A command that needs a seeded instance faults, in the order of R128, or runs its body. -/
theorem guarded_cases (legal : Bool) (body : Inst P → Inst P) (g : Inst P) :
    (g.seeded = false ∧ guarded legal body g = g.respond .unseededUse none) ∨
    (g.seeded = true ∧ legal = false ∧ guarded legal body g = g.respond .invalidArgument none) ∨
    (g.seeded = true ∧ legal = true ∧ guarded legal body g = body g) := by
  cases h : g.seeded <;> cases hl : legal <;> simp [guarded, faultOf, h, Inst.raise]

theorem guarded_unseeded (legal : Bool) (body : Inst P → Inst P) (g : Inst P) (h : g.seeded = false) :
    guarded legal body g = g.respond .unseededUse none := by
  simp [guarded, faultOf, h, Inst.raise]

theorem guarded_illegal (body : Inst P → Inst P) (g : Inst P) (h : g.seeded = true) :
    guarded false body g = g.respond .invalidArgument none := by
  simp [guarded, faultOf, h, Inst.raise]

theorem guarded_legal (body : Inst P → Inst P) (g : Inst P) (h : g.seeded = true) :
    guarded true body g = body g := by
  simp [guarded, faultOf, h]

/-- One iteration of a loop in progress, or nothing (R98). -/
theorem sampleIter_cases (ops : FloatOps) (g : Inst P) :
    (g.job = none ∧ sampleIter ops g = g) ∨
    (∃ j, g.job = some j ∧ drawn g 0 < limit P j.n ∧
      sampleIter ops g = afterSample g 0 (j.finish.result ops (drawn g 0 % j.n))) ∨
    (∃ j, g.job = some j ∧ limit P j.n ≤ drawn g 0 ∧ sampleIter ops g = (extract g).2) := by
  cases hj : g.job with
  | none => exact .inl ⟨rfl, by simp [sampleIter, hj]⟩
  | some j =>
    by_cases h : drawn g 0 < limit P j.n
    · exact .inr (.inl ⟨j, rfl, h, sampleIter_accept ops g j hj h⟩)
    · exact .inr (.inr ⟨j, rfl, Nat.not_lt.mp h, sampleIter_reject ops g j hj (Nat.not_lt.mp h)⟩)

/-- Everything a step can do: nothing presented, a command waiting, a command taken, a reset. -/
theorem step_cases (s t : State) (h : step s = .next t) :
    (s.caller = [] ∧ t = (s.onInst .mt32 Inst.wait).onInst .mt64 Inst.wait) ∨
    (∃ v cmd rest, s.caller = .command v cmd :: rest ∧ (s.inst v).busy = true ∧ t = s.onInst v Inst.wait) ∨
    (∃ v cmd rest, s.caller = .command v cmd :: rest ∧ (s.inst v).busy = false ∧
      t = (s.taken rest).onInst (decode v cmd).variant (command (decode v cmd))) ∨
    (∃ v rest, (s.caller = .reset v :: rest ∨ ∃ cmd, s.caller = .resetDuring v cmd :: rest) ∧
      t = (s.taken rest).onInst v Inst.reset) := by
  unfold step at h
  match hc : s.caller with
  | [] =>
    rw [hc] at h
    exact .inl ⟨rfl, by simpa [present, presentNothing] using h.symm⟩
  | .command v cmd :: rest =>
    rw [hc] at h
    cases hb : (s.inst v).busy with
    | true => exact .inr (.inl ⟨v, cmd, rest, rfl, hb, by simpa [present, presentCommand, hb] using h.symm⟩)
    | false =>
      exact .inr (.inr (.inl ⟨v, cmd, rest, rfl, hb, by
        simpa [present, presentCommand, hb, exec_eq] using h.symm⟩))
  | .reset v :: rest =>
    rw [hc] at h
    exact .inr (.inr (.inr ⟨v, rest, .inl rfl, by simpa [present, presentReset] using h.symm⟩))
  | .resetDuring v cmd :: rest =>
    rw [hc] at h
    exact .inr (.inr (.inr ⟨v, rest, .inr ⟨cmd, rfl⟩, by simpa [present, presentReset] using h.symm⟩))

end Sys2Proof.Machine
end

