-- ==== Sys2Proof/Laws/Float.lean ====
section
/-! SUPPORT. binary32: the fields of a pattern, its significand and scale, and the two bounds from which the order, the
exactness and the monotonicity of rounding follow. -/

namespace Sys2Proof.Machine.Binary32

/-! ### Fields -/

theorem withSign_toNat (s : Bool) (b : Nat) (h : b < 2 ^ 31) :
    (withSign s b).toNat = (if s then 2 ^ 31 else 0) + b := by
  rw [withSign, BitVec.toNat_append, BitVec.toNat_ofNat, Nat.mod_eq_of_lt h,
    ← Nat.shiftLeft_add_eq_or_of_lt h, Nat.shiftLeft_eq]
  cases s <;> simp

/-- The 31 bits below the sign. -/
def low31 (x : Bits32) : Nat := x.toNat % 2 ^ 31

theorem low31_lt (x : Bits32) : low31 x < 2 ^ 31 := Nat.mod_lt _ (Nat.two_pow_pos _)

theorem sign_eq (x : Bits32) : sign x = decide (2 ^ 31 ≤ x.toNat) := by
  have := x.isLt
  rw [sign, BitVec.getLsbD, Nat.testBit_eq_decide_div_mod_eq, decide_eq_decide]
  omega

theorem expField_eq (x : Bits32) : expField x = low31 x / 2 ^ 23 := by
  simp only [expField, low31, BitVec.extractLsb'_toNat, Nat.shiftRight_eq_div_pow]
  omega

theorem fracField_eq (x : Bits32) : fracField x = low31 x % 2 ^ 23 := by
  simp only [fracField, low31, BitVec.extractLsb'_toNat, Nat.shiftRight_eq_div_pow]
  omega

theorem finite_iff (x : Bits32) : finite x = true ↔ low31 x < infBits := by
  have := low31_lt x
  simp only [finite, bne_iff_ne, expField_eq, infBits]
  omega

theorem isNaN_iff (x : Bits32) : isNaN x = true ↔ infBits < low31 x := by
  have := low31_lt x
  simp only [isNaN, Bool.and_eq_true, beq_iff_eq, bne_iff_ne, expField_eq, fracField_eq, infBits]
  omega

theorem isInf_iff (x : Bits32) : isInf x = true ↔ low31 x = infBits := by
  have := low31_lt x
  simp only [isInf, Bool.and_eq_true, beq_iff_eq, expField_eq, fracField_eq, infBits]
  omega

theorem low31_withSign (s : Bool) (b : Nat) (h : b < 2 ^ 31) : low31 (withSign s b) = b := by
  rw [low31, withSign_toNat s b h]
  split <;> omega

theorem sign_withSign (s : Bool) (b : Nat) (h : b < 2 ^ 31) : sign (withSign s b) = s := by
  rw [sign_eq, withSign_toNat s b h]
  cases s
  · simpa using h
  · simp

theorem withSign_self (x : Bits32) : withSign (sign x) (low31 x) = x := by
  have := x.isLt
  apply BitVec.eq_of_toNat_eq
  rw [withSign_toNat _ _ (low31_lt x), sign_eq, low31]
  simp only [decide_eq_true_eq]
  split <;> omega

theorem low31_neg (x : Bits32) : low31 (neg x) = low31 x := by
  simp only [low31, neg, BitVec.toNat_xor, Nat.xor_mod_two_pow]
  simp

theorem sign_neg (x : Bits32) : sign (neg x) = !sign x := by
  simp only [sign, neg, BitVec.getLsbD_xor]
  rw [show (0x80000000#32).getLsbD 31 = true from by decide, Bool.xor_true]

/-! ### Significand and scale: a pattern's magnitude is `sig * 2^scale`, its 31 bits `scale * 2^23 + sig` -/

def scale (b : Nat) : Nat := b / 2 ^ 23 - 1

def sig (b : Nat) : Nat := b - scale b * 2 ^ 23

theorem bits_eq (b : Nat) : scale b * 2 ^ 23 + sig b = b := by
  unfold sig scale; omega

theorem sig_lt (b : Nat) : sig b < 2 ^ 24 := by
  unfold sig scale; omega

/-- Normal numbers have a full significand. -/
theorem sig_ge (b : Nat) (h : 0 < scale b) : 2 ^ 23 ≤ sig b := by
  unfold sig scale at *; omega

theorem magnitude_eq (x : Bits32) : magnitude x = sig (low31 x) * 2 ^ scale (low31 x) := by
  rw [magnitude, expField_eq, fracField_eq]
  generalize low31 x = b
  split
  · rename_i h
    have h1 : scale b = 0 := by unfold scale; omega
    have h2 : b % 2 ^ 23 = b := by omega
    rw [sig, h1, h2]; simp
  · rename_i h
    have h2 : 2 ^ 23 + b % 2 ^ 23 = sig b := by unfold sig scale; omega
    rw [h2]; rfl

/-- The magnitudes of patterns are ordered as their 31 bits. -/
theorem magnitude_lt_of_bits {b c : Nat} (h : b < c) : sig b * 2 ^ scale b < sig c * 2 ^ scale c := by
  have hb := bits_eq b
  have hc := bits_eq c
  have hsb := sig_lt b
  rcases Nat.lt_trichotomy (scale b) (scale c) with hlt | heq | hgt
  · have hsc := sig_ge c (by omega)
    calc sig b * 2 ^ scale b < 2 ^ 24 * 2 ^ scale b := Nat.mul_lt_mul_of_pos_right hsb (Nat.two_pow_pos _)
      _ = 2 ^ 23 * 2 ^ (scale b + 1) := by rw [Nat.pow_succ (2) (scale b)]; omega
      _ ≤ 2 ^ 23 * 2 ^ scale c := Nat.mul_le_mul_left _ (Nat.pow_le_pow_right (by omega) hlt)
      _ ≤ sig c * 2 ^ scale c := Nat.mul_le_mul_right _ hsc
  · rw [heq]
    refine Nat.mul_lt_mul_of_pos_right ?_ (Nat.two_pow_pos _)
    rw [heq] at hb; omega
  · have hsb' := sig_ge b (by omega)
    have : (scale c + 1) * 2 ^ 23 ≤ scale b * 2 ^ 23 := Nat.mul_le_mul_right _ hgt
    have := sig_lt c
    omega

theorem magnitude_le_of_bits {b c : Nat} (h : b ≤ c) : sig b * 2 ^ scale b ≤ sig c * 2 ^ scale c := by
  rcases Nat.lt_or_eq_of_le h with h | rfl
  · exact (magnitude_lt_of_bits h).le
  · exact Nat.le_refl _

/-! ### Rounding -/

theorem le_roundShift (m k : Nat) : m / 2 ^ k ≤ roundShift m k := by
  unfold roundShift; dsimp only; split <;> omega

theorem roundShift_le (m k q : Nat) (h : m ≤ q * 2 ^ k) : roundShift m k ≤ q := by
  have hp := Nat.two_pow_pos k
  have h1 := Nat.mod_add_div m (2 ^ k)
  have h2 : m / 2 ^ k ≤ q := Nat.div_le_of_le_mul (by rw [Nat.mul_comm]; exact h)
  unfold roundShift; dsimp only
  split
  · rename_i hc
    rcases Nat.lt_or_eq_of_le h2 with h3 | h3
    · exact h3
    · rw [h3, Nat.mul_comm (2 ^ k)] at h1
      omega
  · exact h2

/-- How many low bits `roundBits` rounds away. -/
def dropped (m unit : Nat) : Nat := max (Nat.log2 m - 23) (unit - 149)

theorem lt_dropped (m unit : Nat) : m < 2 ^ (24 + dropped m unit) := by
  have h1 := @Nat.lt_log2_self m
  refine Nat.lt_of_lt_of_le h1 (Nat.pow_le_pow_right (by omega) ?_)
  have := Nat.le_max_left (Nat.log2 m - 23) (unit - 149)
  unfold dropped; omega

/-- Where more bits go than the scale of `2^-149` asks for, the significand is full. -/
theorem dropped_full (m unit : Nat) (h : unit - 149 < dropped m unit) : 2 ^ (23 + dropped m unit) ≤ m := by
  have hk : dropped m unit = Nat.log2 m - 23 := by unfold dropped at *; omega
  have hm : m ≠ 0 := by rintro rfl; simp [hk] at h
  have h2 : 23 + dropped m unit = Nat.log2 m := by omega
  rw [h2]
  exact Nat.log2_self_le hm

/-- A pattern not above the exact value is not above the rounded one (monotone from below). -/
theorem le_roundBits (m unit b : Nat) (hb : b ≤ infBits)
    (h : sig b * 2 ^ (scale b + (unit - 149)) ≤ m) : b ≤ roundBits m unit := by
  have hbits := bits_eq b
  have hs := sig_lt b
  show b ≤ min ((dropped m unit - (unit - 149)) * 2 ^ 23 + roundShift m (dropped m unit)) infBits
  have hd : unit - 149 ≤ dropped m unit := Nat.le_max_right _ _
  have hq := le_roundShift m (dropped m unit)
  refine Nat.le_min.mpr ⟨?_, hb⟩
  rcases Nat.lt_trichotomy (scale b + (unit - 149)) (dropped m unit) with hlt | heq | hgt
  · have h1 := dropped_full m unit (by omega)
    have h2 : 2 ^ 23 ≤ m / 2 ^ dropped m unit :=
      (Nat.le_div_iff_mul_le (Nat.two_pow_pos _)).mpr (by rw [← Nat.pow_add]; exact h1)
    have h3 : (scale b + 1) * 2 ^ 23 ≤ (dropped m unit - (unit - 149)) * 2 ^ 23 :=
      Nat.mul_le_mul_right _ (by omega)
    omega
  · rw [heq] at h
    have h2 : sig b ≤ m / 2 ^ dropped m unit := (Nat.le_div_iff_mul_le (Nat.two_pow_pos _)).mpr h
    have h3 : dropped m unit - (unit - 149) = scale b := by omega
    rw [h3]; omega
  · have h1 := sig_ge b (by omega)
    have h2 : 2 ^ (23 + (scale b + (unit - 149))) ≤ m :=
      Nat.le_trans (by rw [Nat.pow_add]; exact Nat.mul_le_mul_right _ h1) h
    have h3 := lt_dropped m unit
    have h4 : 23 + (scale b + (unit - 149)) < 24 + dropped m unit :=
      (Nat.pow_lt_pow_iff_right (by omega : 1 < 2)).mp (Nat.lt_of_le_of_lt h2 h3)
    omega

/-- A pattern not below the exact value is not below the rounded one (monotone from above). -/
theorem roundBits_le (m unit b : Nat) (h : m ≤ sig b * 2 ^ (scale b + (unit - 149))) :
    roundBits m unit ≤ b := by
  have hbits := bits_eq b
  have hs := sig_lt b
  show min ((dropped m unit - (unit - 149)) * 2 ^ 23 + roundShift m (dropped m unit)) infBits ≤ b
  have hd : unit - 149 ≤ dropped m unit := Nat.le_max_right _ _
  refine Nat.le_trans (Nat.min_le_left _ _) ?_
  rcases Nat.lt_trichotomy (scale b + (unit - 149)) (dropped m unit) with hlt | heq | hgt
  · have h1 := dropped_full m unit (by omega)
    exfalso
    have h2 : sig b * 2 ^ (scale b + (unit - 149)) < 2 ^ (24 + (scale b + (unit - 149))) := by
      rw [Nat.pow_add 2 24]; exact Nat.mul_lt_mul_of_pos_right hs (Nat.two_pow_pos _)
    have h3 : 2 ^ (24 + (scale b + (unit - 149))) ≤ 2 ^ (23 + dropped m unit) :=
      Nat.pow_le_pow_right (by omega) (by omega)
    omega
  · rw [heq] at h
    have h2 := roundShift_le _ _ _ h
    have h3 : dropped m unit - (unit - 149) = scale b := by omega
    rw [h3]; omega
  · have h1 := sig_ge b (by omega)
    have h2 : roundShift m (dropped m unit) ≤ 2 ^ 24 :=
      roundShift_le _ _ _ (by rw [← Nat.pow_add]; exact (lt_dropped m unit).le)
    have h3 : (dropped m unit - (unit - 149) + 1) * 2 ^ 23 ≤ scale b * 2 ^ 23 :=
      Nat.mul_le_mul_right _ (by omega)
    omega

/-- A magnitude that a finite pattern has is not changed by rounding. -/
theorem roundBits_exact (unit b : Nat) (hb : b ≤ infBits) :
    roundBits (sig b * 2 ^ (scale b + (unit - 149))) unit = b :=
  Nat.le_antisymm (roundBits_le _ _ _ (Nat.le_refl _)) (le_roundBits _ _ _ hb (Nat.le_refl _))

theorem roundBits_le_inf (m unit : Nat) : roundBits m unit ≤ infBits := Nat.min_le_right _ _

end Sys2Proof.Machine.Binary32
end

