-- ==== Sys2Proof/Laws/Operands.lean ====
section
/-! SUPPORT. The operand tests as bounds on numbers, and the phase as the absence of a loop in progress. -/

namespace Sys2Proof.Machine

/-- `2^W` is twice `2^(W-1)`, the power that `MAX` is one below. -/
theorem two_pow_W (P : Params) : 2 ^ P.W = 2 * 2 ^ (P.W - 1) := by
  have h := P.W_ge
  conv_lhs => rw [show P.W = (P.W - 1) + 1 by omega, Nat.pow_succ]
  omega

theorem MAX_succ (P : Params) : P.MAX + 1 = 2 ^ (P.W - 1) := by
  have := Nat.two_pow_pos (P.W - 1)
  unfold Params.MAX; omega

/-- R95: `s(a) > 0` is `1 <= u(a) <= MAX`. -/
theorem legalDivisor_iff {P : Params} (a : Word P.W) :
    legalDivisor a = true ↔ 1 ≤ a.toNat ∧ a.toNat ≤ P.MAX := by
  have h1 := two_pow_W P
  have h2 := a.isLt
  have h3 := MAX_succ P
  simp only [legalDivisor, decide_eq_true_eq, sval, BitVec.toInt_eq_toNat_cond]
  split <;> omega

theorem phase_idle_iff {P : Params} (g : Inst P) : g.phase = .idle ↔ g.job = none := by
  unfold Inst.phase; cases g.job <;> simp

theorem busy_iff {P : Params} (g : Inst P) : g.busy = true ↔ g.phase = .sampling := by
  unfold Inst.busy Inst.phase; cases g.job <;> simp

end Sys2Proof.Machine
end

