-- ==== Sys2Proof/Laws/PerInstr.lean ====
section
/-! SUPPORT. One lemma per constructor of `Instr`: the fields of its command word are its operation's code and its two operands. -/

namespace Sys2Proof.Laws.EncodeFields

/-- The three fields of the command word of `i` (R56, R57). -/
def Statement (i : Instr) : Prop :=
  opField (encode i) = i.op.code ∧ aField (encode i) = i.fieldA ∧ bField (encode i) = i.fieldB

theorem encode_fields (i : Instr) : Statement i :=
  ⟨opField_append _ _ _, aField_append _ _ _, bField_append _ _ _⟩

theorem seed (v : Variant) (a b : Word v.W) : Statement (.seed v a b) := encode_fields _
theorem extract (v : Variant) (a b : Word v.W) : Statement (.extract v a b) := encode_fields _
theorem next (v : Variant) (a b : Word v.W) : Statement (.next v a b) := encode_fields _
theorem nextf (v : Variant) (a b : Word v.W) : Statement (.nextf v a b) := encode_fields _
theorem range (v : Variant) (a b : Word v.W) : Statement (.range v a b) := encode_fields _
theorem rangef (v : Variant) (a b : Word v.W) : Statement (.rangef v a b) := encode_fields _
theorem reserved000 (v : Variant) (a b : Word v.W) : Statement (.reserved000 v a b) := encode_fields _
theorem reserved111 (v : Variant) (a b : Word v.W) : Statement (.reserved111 v a b) := encode_fields _

end Sys2Proof.Laws.EncodeFields
end

