-- ==== Sys2Proof/Laws/Run.lean ====
section
/-! SUPPORT. Runs: a list of commands command by command, and a number of steps step by step. -/

namespace Sys2Proof.Machine

@[simp] theorem execAll_nil (s : State) : execAll [] s = s := rfl

/-- An idle instance takes the next command of a run. -/
theorem execAll_cons_idle (i : Instr) (rest : List Instr) (s : State) (h : (s.inst i.variant).job = none) :
    execAll (i :: rest) s = execAll rest (s.onInst i.variant (command i)) := by
  simp [execAll, Inst.busy, h, exec_eq]

/-- A run goes no further while the loop of the command before has not ended (R145). -/
theorem execAll_cons_busy (i : Instr) (rest : List Instr) (s : State)
    (h : (s.inst i.variant).job.isSome = true) : execAll (i :: rest) s = s := by
  simp [execAll, Inst.busy, h]

@[simp] theorem stepAll_zero (s : State) : stepAll 0 s = s := rfl

theorem stepAll_succ (n : Nat) (s t : State) (h : step s = .next t) : stepAll (n + 1) s = stepAll n t := by
  simp [stepAll, h]

/-- The step that takes a command. -/
theorem step_command (s : State) (v : Variant) (cmd : CommandWord v) (rest : List Event)
    (hc : s.caller = .command v cmd :: rest) (h : (s.inst v).job = none) :
    step s = exec (decode v cmd) (s.taken rest) := by
  simp [step, hc, present, presentCommand, Inst.busy, h]

/-- The step in which a command waits. -/
theorem step_waits (s : State) (v : Variant) (cmd : CommandWord v) (rest : List Event)
    (hc : s.caller = .command v cmd :: rest) (h : (s.inst v).job.isSome = true) :
    step s = .next (s.onInst v Inst.wait) := by
  simp [step, hc, present, presentCommand, Inst.busy, h]

end Sys2Proof.Machine
end

