-- ==== Sys2Proof/Tests/Slice0.lean ====
section
/-! SUPPORT. Tests. Expected values are the vectors of spec/95_test_vectors.md (V1 to V11) and the worked examples of the rules,
unless a comment says that they are computed by hand from a rule. The second part has one theorem for every
obligation with hypotheses, showing that a concrete state meets them. -/

namespace Sys2Proof.Tests

open Sys2Proof Sys2Proof.Machine

/-! ### Small states -/

/-- Seeded, all words zero, right after a TWIST. -/
def zeroInst (P : Params) : Inst P := ⟨Vector.replicate P.N 0, 0, true, none, [], 1, 0, 0⟩

def zeroState : State := ⟨zeroInst _, zeroInst _, []⟩

/-- The state after `SEED 1` and its first TWIST, as far as V2 prints the array; the fifth MT32 word is the one
that tempers to the fifth output of V3. -/
def streamState (k : Nat) : State where
  mt32 := { zeroInst Params.mt32 with
    index := BitVec.ofNat _ k
    words := ((((((zeroInst Params.mt32).words.set 0 0x9CB47A9A#32 (by decide)).set 1 0xB1D19108#32 (by decide)).set
      2 0x28A01717#32 (by decide)).set 3 0xF06C30E1#32 (by decide)).set 4 0x2F40C0E6#32 (by decide)) }
  mt64 := { zeroInst Params.mt64 with
    index := BitVec.ofNat _ k
    words := (((((zeroInst Params.mt64).words.set 0 0x3F973A2AA2DB768A#64 (by decide)).set
      1 0x102D2AA96E7DF27D#64 (by decide)).set 2 0x1EC25F37477864D0#64 (by decide)).set
      3 0x52D23E8BA40638E0#64 (by decide)) }
  caller := []

/-- A NEXT 7 whose loop has not ended (R101). -/
def busyState (es : List Event) : State where
  mt32 := { zeroInst Params.mt32 with job := some ⟨7, .next⟩ }
  mt64 := zeroInst _
  caller := es

/-- Status, result and cursor after one command. -/
def outcome (i : Instr) (s : State) : List (Response i.variant.params) × Nat :=
  let g := (execAll [i] s).inst i.variant
  (g.responses, g.index.toNat)

/-! ### Well-formedness (R55, R58, R60, R65): one ill-formed term per check -/

theorem test_wellFormed_reserved : (Instr.reserved111 .mt32 0#32 0#32).wellFormed = false := by decide
theorem test_wellFormed_unused : (Instr.extract .mt32 0#32 1#32).wellFormed = false ∧
    (Instr.seed .mt64 1#64 1#64).wellFormed = false := by decide
theorem test_wellFormed_rangefHigh :
    (Instr.rangef .mt64 0x100000000#64 0#64).wellFormed = false := by decide
theorem test_wellFormed_written : (Written.NEXT (2 ^ 32)).fits .mt32 = false ∧
    (Written.NEXT (2 ^ 32)).fits .mt64 = true ∧ (Written.SEED (-(2 ^ 31) - 1)).fits .mt32 = false := by decide
theorem test_wellFormed_ok : (Instr.range .mt32 5#32 0xFFFFFFFB#32).wellFormed = true := by decide

/-! ### Encodings (V11, R65) -/

theorem test_decode_seed : decodeTableWord 67 0x10000157100000000 = some (.seed .mt32 5489#32 0#32) ∧
    decodeTableWord 131 0x100000000000015710000000000000000 = some (.seed .mt64 5489#64 0#64) := by decide
theorem test_decode_extract : decodeTableWord 67 0x20000000000000000 = some (.extract .mt32 0#32 0#32) ∧
    decodeTableWord 131 0x200000000000000000000000000000000 = some (.extract .mt64 0#64 0#64) := by decide
theorem test_decode_next : decodeTableWord 67 0x30000006400000000 = some (.next .mt32 100#32 0#32) ∧
    decodeTableWord 131 0x3FFFFFFFFFFFFFFFF0000000000000000 =
      some (.next .mt64 0xFFFFFFFFFFFFFFFF#64 0#64) := by decide
theorem test_decode_nextf : decodeTableWord 67 0x40000000000000000 = some (.nextf .mt32 0#32 0#32) ∧
    decodeTableWord 131 0x400000000000000000000000000000000 = some (.nextf .mt64 0#64 0#64) := by decide
theorem test_decode_range : decodeTableWord 67 0x5FFFFFFFB00000005 = some (.range .mt32 0xFFFFFFFB#32 5#32) ∧
    decodeTableWord 131 0x50000000000000005FFFFFFFFFFFFFFFB =
      some (.range .mt64 5#64 0xFFFFFFFFFFFFFFFB#64) := by decide
theorem test_decode_rangef :
    decodeTableWord 67 0x64120000041A00000 = some (.rangef .mt32 0x41200000#32 0x41A00000#32) ∧
    decodeTableWord 131 0x600000000BF800000000000003F800000 =
      some (.rangef .mt64 0xBF800000#64 0x3F800000#64) := by decide
theorem test_decode_reserved : decodeTableWord 67 0x70000000000000000 = some (.reserved111 .mt32 0#32 0#32) ∧
    decodeTableWord 131 0 = some (.reserved000 .mt64 0#64 0#64) := by decide
/-- Bit 67 is no bit of an MT32 command word (R56). -/
theorem test_decode_tooLong : decodeTableWord 67 0x80000000000000000 = none := by decide
theorem test_encode : (encode (.range .mt32 0xFFFFFFFB#32 5#32)).toNat = 0x5FFFFFFFB00000005 := by decide
/-- R65: `NEXT -1` and `NEXT 0xFFFFFFFF` are the same MT32 command. -/
theorem test_written : (Written.NEXT (-1)).assemble .mt32 = .next .mt32 0xFFFFFFFF#32 0#32 ∧
    (Written.NEXT 0xFFFFFFFF).assemble .mt32 = .next .mt32 0xFFFFFFFF#32 0#32 := by decide

/-! ### SEED (V1) -/

theorem test_seed_mt32 : (fillWord (P := Params.mt32) 1#32 3).toNat = 0xB9523B81 ∧
    (fillWord (P := Params.mt32) 0xFFFFFFFF#32 1).toNat = 0x4FE1DA6D := by decide
theorem test_seed_mt64 : (fillWord (P := Params.mt64) 5489#64 3).toNat = 0xD139B6BBED337F3F ∧
    (fillWord (P := Params.mt64) 0xFFFFFFFFFFFFFFFF#64 1).toNat = 0x9EB82F4ACDAA034D := by decide

/-! ### TWIST (R83, V2) -/

theorem test_twist_mt32 :
    (twistMix (P := Params.mt32) 0x00000001#32 0x6C078966#32 0xAAB7BE29#32).toNat = 0x9CB47A9A ∧
    (twistMix (P := Params.mt32) 0x804DFC5F#32 0x7D5D5695#32 0x9CB47A9A#32).toNat = 0x7B12610F := by decide
theorem test_twist_mt64 :
    (twistMix (P := Params.mt64) 1#64 0x5851F42D4C957F2E#64 0x3F973A2A8491C91D#64).toNat = 0x3F973A2AA2DB768A ∧
    (twistMix (P := Params.mt64) 0x5851F42D4C957F2E#64 0x190380FC9ABAAC45#64 0x8907BFE54A46BDB6#64).toNat =
      0x102D2AA96E7DF27D := by decide

/-- MT32 with an array of three words and `M = 2`. -/
def threeWords : Params :=
  { Params.mt32 with
    N := 3, M := 2, indexBits := 2
    M_pos := by decide, M_lt := by decide, N_fits := by decide
    W_ge := by decide, R_lt := by decide, U_lt := by decide, S_lt := by decide, T_lt := by decide
    L_lt := by decide }

/-- By hand from R76, R77: iterations 1 and 2 read words this same TWIST has written. -/
theorem test_twist_inPlace :
    (twistWords (P := threeWords) #v[0x80000001#32, 0x00000007#32, 0xC0000004#32]).toList.map BitVec.toNat =
      [0x1908B0D8, 0x3908B0DA, 0x758CE8B6] := by decide +kernel

/-! ### EXTRACT (R93, V3, V4, V9) -/

theorem test_temper : (temper (P := Params.mt32) 0x9CB47A9A#32).toNat = 0x6AC1F425 ∧
    (temper (P := Params.mt64) 0x102D2AA96E7DF27D#64).toNat = 0x22EB92502318FA4E := by decide
theorem test_extract_mt32 :
    outcome (.extract .mt32 0#32 0#32) (streamState 3) = ([⟨.ok, some 0xEEBC1448#32⟩], 4) := by decide +kernel
theorem test_extract_mt64 :
    outcome (.extract .mt64 0#64 0#64) (streamState 2) = ([⟨.ok, some 0x7382D1E77AE6459A#64⟩], 3) := by
  decide +kernel
/-- By hand from R86: the cursor at `N`, a TWIST, then the tempered new word 0. -/
theorem test_extract_twists :
    let g := extract (P := threeWords)
      ⟨#v[0x80000001#32, 0x00000007#32, 0xC0000004#32], 3, true, none, [], 1, 3, 0⟩
    g.1.toNat = 0x77C5CA3F ∧ g.2.index.toNat = 1 ∧ g.2.twists = 2 ∧ g.2.extracts = 4 := by decide +kernel

/-! ### NEXT (R104, V5) -/

theorem test_next_accepts :
    outcome (.next .mt32 100#32 0#32) (streamState 0) = ([⟨.ok, some 45#32⟩], 1) ∧
    outcome (.next .mt64 100#64 0#64) (streamState 0) = ([⟨.ok, some 28#64⟩], 1) := by decide +kernel
/-- Three rejections, then 0x00077EFF. -/
theorem test_next_rejects :
    outcome (.next .mt32 7#32 0#32) (streamState 1) = ([⟨.ok, some 3#32⟩], 5) ∧
    outcome (.next .mt32 1#32 0#32) (streamState 1) = ([⟨.ok, some 0#32⟩], 5) := by decide +kernel
theorem test_limit : limit Params.mt32 100 = 0x7FFFFFD0 ∧ limit Params.mt32 1073741825 = 0x40000001 ∧
    limit Params.mt64 7 = 0x7FFFFFFFFFFFFFFF ∧ limit Params.mt64 (2 ^ 62) = 0x4000000000000000 := by decide

/-! ### NEXTF, RANGE, RANGEF (V6, V7, V8) -/

theorem test_f32 : F32 0 = 0#32 ∧ F32 1 = 0x33800000#32 ∧ F32 3 = 0x34400000#32 ∧
    F32 (2 ^ 24 - 1) = 0x3F7FFFFF#32 ∧ F32 12710949 = 0x3F41F425#32 := by decide +kernel
theorem test_nextf :
    outcome (.nextf .mt32 0#32 0#32) (streamState 1) = ([⟨.ok, some 0x3CEFDFE0#32⟩], 5) ∧
    outcome (.nextf .mt64 0#64 0#64) (streamState 3) = ([⟨.ok, some 0x3E570238#64⟩], 4) := by decide +kernel
theorem test_range_mt32 :
    outcome (.range .mt32 0xFFFFFFFB#32 5#32) (streamState 0) = ([⟨.ok, some 0#32⟩], 1) ∧
    outcome (.range .mt32 0x80000000#32 0xFFFFFFFF#32) (streamState 0) =
      ([⟨.ok, some 0xEAC1F425#32⟩], 1) := by decide +kernel
theorem test_range_mt64 :
    outcome (.range .mt64 100#64 200#64) (streamState 0) = ([⟨.ok, some 0x80#64⟩], 1) := by decide +kernel
theorem test_rangef_mt32 :
    outcome (.rangef .mt32 0x41200000#32 0x41A00000#32) (streamState 0) =
      ([⟨.ok, some 0x418C9C4C#32⟩], 1) := by decide +kernel
theorem test_rangef_mt64 :
    outcome (.rangef .mt64 0xBF800000#64 0x3F800000#64) (streamState 0) =
      ([⟨.ok, some 0xBE3C84C0#64⟩], 1) := by decide +kernel
/-- R115: the two roundings bring the result up to `max` itself. -/
theorem test_affine_reachesMax :
    affine FloatOps.ieee (F32 (2 ^ 24 - 1)) 0x3F800000#32 0x40000000#32 = 0x40000000#32 := by decide +kernel
/-- R116 (b): a zero draw with `min = -0.0` gives `+0.0`. -/
theorem test_affine_negativeZero :
    affine FloatOps.ieee (F32 0) 0x80000000#32 0x3F800000#32 = 0#32 := by decide +kernel

/-! ### Faults (V10) -/

theorem test_fault_unseeded :
    ((execAll [.next .mt32 0#32 0#32] State.reset).inst .mt32).responses = [⟨.unseededUse, none⟩] ∧
    ((execAll [.reserved111 .mt64 0#64 0#64] State.reset).inst .mt64).responses =
      [⟨.illegalCommand, none⟩] := by decide
theorem test_fault_next :
    outcome (.next .mt32 0xFFFFFFFF#32 0#32) zeroState = ([⟨.invalidArgument, none⟩], 0) ∧
    outcome (.next .mt64 0#64 0#64) zeroState = ([⟨.invalidArgument, none⟩], 0) := by decide +kernel
/-- R109 (a), (b): inverted bounds whose wrapped difference is 1, and bounds too far apart. -/
theorem test_fault_range :
    outcome (.range .mt32 0x7FFFFFFF#32 0x80000000#32) zeroState = ([⟨.invalidArgument, none⟩], 0) ∧
    outcome (.range .mt32 0x80000000#32 0x7FFFFFFF#32) zeroState = ([⟨.invalidArgument, none⟩], 0) := by
  decide +kernel
theorem test_fault_rangef :
    legalRangeF FloatOps.ieee 0x80000000#32 0x00000000#32 = false ∧
    legalRangeF FloatOps.ieee 0x7FC00000#32 0x3F800000#32 = false ∧
    legalRangeF FloatOps.ieee 0xFF800000#32 0x00000000#32 = false ∧
    legalRangeF FloatOps.ieee 0xFF7FFFFF#32 0x7F7FFFFF#32 = false := by decide +kernel
theorem test_fault_codes : Status.ok.code = 0b00#2 ∧ Status.unseededUse.code = 0b01#2 ∧
    Status.invalidArgument.code = 0b10#2 ∧ Status.illegalCommand.code = 0b11#2 := by decide

/-! ### Steps -/

/-- The first command after reset: `NEXT 0` on an unseeded instance is UnseededUse (V10). -/
theorem test_step_first :
    ∃ t, step (State.reset.withFetchWord 67 0x30000000000000000) = .next t ∧ t.caller = [] ∧
      t.mt32.responses = [⟨.unseededUse, none⟩] ∧ t.mt64 = State.reset.mt64 :=
  ⟨_, rfl, rfl, rfl, rfl⟩
/-- R146: the second command is not taken while the loop runs; here the loop ends in this step. -/
theorem test_step_waits :
    ∃ t, step (busyState [.command .mt32 (BitVec.ofNat _ 0x20000000000000000)]) = .next t ∧
      t.caller.length = 1 ∧ t.mt32.responses = [⟨.ok, some 0#32⟩] :=
  ⟨_, rfl, rfl, by decide +kernel⟩

/-! ### Runs (R145, R146) -/

/-- A command is not presented while a loop runs. -/
theorem test_run_busy : ((execAll [.extract .mt32 0#32 0#32] (busyState [])).inst .mt32).responses = [] := by
  decide
/-- P2, first command: UnseededUse, and the triple is unseeded with `words` and `index` absent. -/
theorem test_run_unseeded :
    runOutcome .mt32 [BitVec.ofNat _ 0x20000000000000000] State.reset =
      some ⟨[⟨.unseededUse, none⟩], none, false⟩ := rfl

/-! ### Witnesses: each obligation's hypotheses are met by a concrete state -/

/-- On the zero state every legal divisor accepts the first draw. -/
theorem firstAccepted_zero (v : Variant) (n : Nat) (h1 : 1 ≤ n) (h2 : n ≤ v.params.MAX) :
    FirstAccepted (zeroState.inst v) n 0 := by
  have h : drawn (zeroState.inst v) 0 = 0 := by cases v <;> decide +kernel
  refine ⟨?_, by omega⟩
  have := Nat.mod_lt v.params.MAX h1
  omega

theorem zeroState_inv : zeroState.Inv := by
  intro v
  cases v
  · exact ⟨fun _ => by decide, fun _ => by decide, by decide, by decide, by decide, nofun, nofun⟩
  · exact ⟨fun _ => by decide, fun _ => by decide, by decide, by decide, by decide, nofun, nofun⟩

/-- EveryCommandWordIsTheWordOfOneInstruction. -/
theorem test_witness_oneInstruction :
    (encode (.seed .mt32 1#32 0#32)).toNat = (BitVec.ofNat 67 0x10000000100000000).toNat := by decide
/-- StepRunsThePresentedCommand. -/
theorem test_witness_stepRuns :
    let s : State := { zeroState with caller := [.command .mt64 (BitVec.ofNat _ 0), .reset .mt32] }
    s.caller = .command .mt64 (BitVec.ofNat _ 0) :: [.reset .mt32] ∧ (s.inst .mt64).phase = .idle :=
  ⟨rfl, rfl⟩
/-- CommandWaitsWhileTheInstanceIsBusy; `test_step_waits` runs it. -/
theorem test_witness_waits :
    (busyState [.command .mt32 (BitVec.ofNat _ 0)]).caller = .command .mt32 (BitVec.ofNat _ 0) :: [] ∧
    ((busyState [.command .mt32 (BitVec.ofNat _ 0)]).inst .mt32).phase = .sampling := ⟨rfl, rfl⟩
/-- IdleMachineHoldsItsState. -/
theorem test_witness_idle : zeroState.caller = [] ∧ ∀ v, (zeroState.inst v).phase = .idle :=
  ⟨rfl, fun v => by cases v <;> rfl⟩
/-- ResetEventLeavesTheResetState: between commands, and during a loop. -/
theorem test_witness_reset :
    (busyState [.reset .mt32]).caller = .reset .mt32 :: [] ∧
    ∃ cmd, ({ zeroState with caller := [.resetDuring .mt64 (BitVec.ofNat _ 1)] } : State).caller =
      .resetDuring .mt64 cmd :: [] := ⟨rfl, _, rfl⟩
/-- SeededIsWrittenByResetAndSeedOnly: the flag cleared by a reset, set by a SEED, and kept by NEXT. -/
theorem test_witness_seededCleared :
    ∃ t, step { zeroState with caller := [.reset .mt32] } = .next t ∧
      (zeroState.inst .mt32).seeded = true ∧ (t.inst .mt32).seeded = false := ⟨_, rfl, rfl, rfl⟩
theorem test_witness_seededSet :
    ∃ t, step (State.reset.withFetchWord 67 0x10000000100000000) = .next t ∧
      (State.reset.inst .mt32).seeded = false ∧ (t.inst .mt32).seeded = true := ⟨_, rfl, rfl, rfl⟩
theorem test_witness_seededKept :
    ∃ t, step (State.reset.withFetchWord 67 0x30000000100000000) = .next t ∧
      (t.inst .mt32).seeded = (State.reset.inst .mt32).seeded := ⟨_, rfl, rfl⟩
/-- UnseededReadingCommandsFault: unseeded, and seeded. -/
theorem test_witness_unseeded (i : Instr) (h : i = .extract .mt32 0#32 0#32 ∨ i = .rangef .mt64 0#64 0#64) :
    i.isCommand = true ∧ i.op ≠ .seed ∧ (State.reset.inst i.variant).seeded = false ∧
      (zeroState.inst i.variant).seeded = true := by
  obtain rfl | rfl := h <;> decide
/-- NextRefusesIllegalDivisors, at both ends. -/
theorem test_witness_illegalDivisor : (zeroState.inst .mt32).seeded = true ∧
    (0#32).toInt ≤ 0 ∧ (0x80000000#32).toInt ≤ 0 := by decide
/-- RangeRefusesIllegalBounds, at both ends. -/
theorem test_witness_illegalRange : (zeroState.inst .mt32).seeded = true ∧
    (5#32).toInt - (5#32).toInt < 1 ∧
    (Params.mt32.MAX : Int) < (0#32).toInt - (0x80000000#32).toInt ∧
    (1 ≤ (11#32).toInt - (10#32).toInt ∧ (11#32).toInt - (10#32).toInt ≤ Params.mt32.MAX) := by decide
/-- RangefRefusesIllegalBounds: each of the four conditions. -/
theorem test_witness_illegalRangef : (zeroState.inst .mt64).seeded = true ∧
    Binary32.finite 0xFF800000#32 = false ∧ Binary32.finite 0x7FC00000#32 = false ∧
    Binary32.less 0x80000000#32 0x00000000#32 = false ∧
    Binary32.finite (Binary32.sub 0x7F7FFFFF#32 0xFF7FFFFF#32) = false := by decide +kernel
/-- FaultsChangeNothingButTheResponse. -/
theorem test_witness_fault : ∃ t, exec (.next .mt32 0#32 0#32) zeroState = .next t ∧
    (t.inst .mt32).responses = ⟨.invalidArgument, none⟩ :: (zeroState.inst .mt32).responses :=
  ⟨_, rfl, rfl⟩
/-- LegalCommandsOnASeededInstanceDoNotFault: the legality of NEXT, RANGE and RANGEF at their bounds. -/
theorem test_witness_legal : (zeroState.inst .mt32).seeded = true ∧ (zeroState.inst .mt32).faultFree ∧
    (1 ≤ (0x7FFFFFFF#32).toNat ∧ (0x7FFFFFFF#32).toNat ≤ Params.mt32.MAX) ∧
    (1 ≤ (0xFFFFFFFF#32).toInt - (0x80000000#32).toInt ∧
      (0xFFFFFFFF#32).toInt - (0x80000000#32).toInt ≤ Params.mt32.MAX) ∧
    legalRangeF FloatOps.ieee 0x00000000#32 0x00000001#32 = true ∧
    ∃ t, exec (.range .mt32 0x80000000#32 0xFFFFFFFF#32) zeroState = .next t :=
  ⟨rfl, nofun, by decide, by decide, by decide +kernel, _, rfl⟩
/-- OutputsDependOnTheSeedAndTheCommandsAlone. -/
theorem test_witness_outputs :
    (∀ i ∈ [Instr.extract .mt32 0#32 0#32, .next .mt32 7#32 0#32], i.variant = .mt32) ∧
    (zeroState.inst .mt32).phase = .idle ∧ (State.reset.inst .mt32).phase = .idle := by
  refine ⟨by simp, rfl, rfl⟩
/-- TwistReadsTheArrayInPlace, TwistEqualsItsTwoArrayForm: iterations 226, 227 and 623 (R83). -/
theorem test_witness_twistClauses : 226 + Params.mt32.M < Params.mt32.N ∧
    (Params.mt32.N ≤ 227 + Params.mt32.M ∧ 227 + 1 < Params.mt32.N) ∧
    (623 + 1 = Params.mt32.N ∧ Params.mt32.N ≤ 623 + Params.mt32.M) := by decide
/-- SeedFillsTheArrayAndMarksItSeeded, FilledArrayHasNoTwoNeighbouringZeros: the last pair of elements. -/
theorem test_witness_fill : 622 + 1 < Params.mt32.N ∧ 310 + 1 < Params.mt64.N := by decide
/-- ExtractReturnsTheTemperedWordAtTheCursor: the last word of an array, and the exhausted cursor. -/
theorem test_witness_extract : ((streamState 623).inst .mt32).seeded = true ∧
    ((streamState 623).inst .mt32).index.toNat < Params.mt32.N ∧
    ((streamState 624).inst .mt32).seeded = true ∧
    Params.mt32.N ≤ ((streamState 624).inst .mt32).index.toNat := by decide
/-- TwistRunsExactlyAtTheBoundary. -/
theorem test_witness_boundary : (State.reset.inst .mt32).phase = .idle := rfl
/-- TemperIsOneToOne. -/
theorem test_witness_temper : temper (P := Params.mt32) 1#32 = temper (P := Params.mt32) 1#32 := rfl
/-- NextReturnsTheFirstAcceptedDraw, NextEndsExactlyWhenAWordIsAccepted, NextIsTheClosureOfItsIterations:
divisors 1 and `MAX`. -/
theorem test_witness_next : (zeroState.inst .mt64).seeded = true ∧
    (1 ≤ (1#64).toNat ∧ (1#64).toNat ≤ Params.mt64.MAX ∧ FirstAccepted (zeroState.inst .mt64) (1#64).toNat 0) ∧
    (1 ≤ (0x7FFFFFFFFFFFFFFF#64).toNat ∧ (0x7FFFFFFFFFFFFFFF#64).toNat ≤ Params.mt64.MAX ∧
      FirstAccepted (zeroState.inst .mt64) (0x7FFFFFFFFFFFFFFF#64).toNat 0) :=
  ⟨rfl, ⟨by decide, by decide, firstAccepted_zero .mt64 _ (by decide) (by decide)⟩,
    by decide, by decide, firstAccepted_zero .mt64 _ (by decide) (by decide)⟩
/-- The same with three rejections first (R104): `NEXT 7` from the second word of the stream. -/
theorem test_witness_nextRejects : FirstAccepted ((streamState 1).inst .mt32) 7 3 := by
  unfold FirstAccepted; decide +kernel
/-- A constant table whose all-equal array of 0x80000001 is a fixed point of TWIST, with tempering masks zero: by
hand from R76, `0x80000001 ^ (0x80000001 >> 1) ^ A = 0x80000001` for `A = 0x40000000`. -/
def stuckWords : Params :=
  { Params.mt32 with
    N := 2, M := 1, indexBits := 2, A := 0x40000000#32, D := 0#32, B := 0#32, C := 0#32
    M_pos := by decide, M_lt := by decide, N_fits := by decide
    W_ge := by decide, R_lt := by decide, U_lt := by decide, S_lt := by decide, T_lt := by decide
    L_lt := by decide }

def stuckInst : Inst stuckWords := ⟨#v[0x80000001#32, 0x80000001#32], 0, true, none, [], 1, 0, 0⟩

theorem extract_stuck (g : Inst stuckWords) (h : g.words = stuckInst.words) :
    (extract g).2.words = stuckInst.words ∧ 2 ^ 31 ≤ wordValue (extract g).1 := by
  have ht : twistWords stuckInst.words = stuckInst.words := by decide +kernel
  have hv : ∀ i : Fin stuckWords.N, 2 ^ 31 ≤ wordValue (temper stuckInst.words[i]) := by decide +kernel
  obtain ⟨hi, e⟩ | ⟨hi, e⟩ := extract_cases g
  · rw [e]; exact ⟨h, by simpa [h] using hv ⟨_, hi⟩⟩
  · rw [e, h, ht]; exact ⟨rfl, hv ⟨0, stuckWords.N_pos⟩⟩

/-- Every word of this stream has its top bit set, so none is accepted. -/
theorem stuck_rejects (k : Nat) : 2 ^ 31 ≤ drawn stuckInst k := by
  have hw : (afterExtracts k stuckInst).words = stuckInst.words := by
    induction k with
    | zero => rfl
    | succ k ih => exact (extract_stuck _ ih).1
  exact (extract_stuck _ hw).2

/-- NextEndsExactlyWhenAWordIsAccepted, SamplingLoopEndsExactlyWhenAWordIsAccepted: a loop that never ends. The
canonical constants have no such array (93 G5), so this one stands over another table. -/
theorem test_witness_neverEnds (ops : FloatOps) : (sample ops 7 .next stuckInst).phase ≠ .idle := by
  rw [sample_noneAccepted ops 7 .next stuckInst fun k =>
    Nat.le_trans (by decide) (stuck_rejects k)]
  simp [Inst.phase]
/-- SamplingLoopEndsExactlyWhenAWordIsAccepted: a loop that ends. -/
theorem test_witness_ends (ops : FloatOps) :
    (sample ops CHUNKS .nextf (zeroInst Params.mt64)).phase = .idle := by
  rw [sample_firstAccepted ops CHUNKS .nextf (zeroInst Params.mt64) 0
    (firstAccepted_zero .mt64 _ (by decide) (by decide))]
  rfl
/-- RunsEndWhenEveryCommandHasResponded: `EXTRACT`, `NEXT 7` on an idle instance. -/
theorem test_witness_run :
    let cmds : List (CommandWord .mt32) :=
      [BitVec.ofNat _ 0x20000000000000000, BitVec.ofNat _ 0x30000000700000000]
    let s : State := { zeroState with caller := cmds.map (.command .mt32) }
    (s.inst .mt32).phase = .idle ∧ s.caller = cmds.map (.command .mt32) ∧
      (runOutcome .mt32 cmds s).isSome = true := ⟨rfl, rfl, by decide +kernel⟩
/-- NextResultIsBelowTheDivisor. -/
theorem test_witness_nextResult : ∃ t, exec (.next .mt32 7#32 0#32) zeroState = .next t ∧
    (t.inst .mt32).responses = ⟨.ok, some 0#32⟩ :: (zeroState.inst .mt32).responses :=
  ⟨_, rfl, by decide +kernel⟩
/-- LimitIsTheLargestMultiple, AcceptedFractionIsBetweenQuarterAndHalf, AcceptedValuesAreUnbiased. -/
theorem test_witness_limit : 1 ≤ Params.mt32.MAX ∧ Params.mt32.MAX ≤ Params.mt32.MAX ∧
    Params.mt32.MAX - 1 < Params.mt32.MAX := by decide
/-- LimitInTheCornerCases. -/
theorem test_witness_limitCorners : Params.mt32.W - 2 ≤ Params.mt32.W - 2 ∧
    2 ^ (Params.mt32.W - 2) ≤ Params.mt32.MAX - 1 ∧ Params.mt32.MAX - 1 < Params.mt32.MAX := by decide
/-- NextfReturnsTheFirstAcceptedDraw. -/
theorem test_witness_nextf (v : Variant) :
    (zeroState.inst v).seeded = true ∧ FirstAccepted (zeroState.inst v) 16777216 0 :=
  ⟨by cases v <;> rfl, firstAccepted_zero v _ (by decide) (by cases v <;> decide)⟩
/-- NextfResultIsBelowOne. -/
theorem test_witness_nextfResult : ∃ t, exec (.nextf .mt32 0#32 0#32) zeroState = .next t ∧
    (t.inst .mt32).responses = ⟨.ok, some 0#32⟩ :: (zeroState.inst .mt32).responses :=
  ⟨_, rfl, by decide +kernel⟩
/-- RangeReturnsMinPlusTheFirstAcceptedDraw, RangeIsNextShifted: differences 1 and `MAX`. -/
theorem test_witness_range : (zeroState.inst .mt32).seeded = true ∧
    (1 ≤ (11#32).toInt - (10#32).toInt ∧ (11#32).toInt - (10#32).toInt ≤ Params.mt32.MAX ∧
      FirstAccepted (zeroState.inst .mt32) (11#32 - 10#32).toNat 0) ∧
    (1 ≤ (0xFFFFFFFF#32).toInt - (0x80000000#32).toInt ∧
      (0xFFFFFFFF#32).toInt - (0x80000000#32).toInt ≤ Params.mt32.MAX ∧
      FirstAccepted (zeroState.inst .mt32) (0xFFFFFFFF#32 - 0x80000000#32).toNat 0) :=
  ⟨rfl, ⟨by decide, by decide, firstAccepted_zero .mt32 _ (by decide) (by decide)⟩,
    by decide, by decide, firstAccepted_zero .mt32 _ (by decide) (by decide)⟩
/-- RangeResultIsWithinTheBounds. -/
theorem test_witness_rangeResult : ∃ t, exec (.range .mt32 10#32 11#32) zeroState = .next t ∧
    (t.inst .mt32).responses = ⟨.ok, some 10#32⟩ :: (zeroState.inst .mt32).responses :=
  ⟨_, rfl, by decide +kernel⟩
/-- RangefReturnsTheRescaledDraw, RangefConsumesWhatNextfConsumes, RangefResultIsNotBelowMin: `-0.0` to the
smallest subnormal, and `1.0` to `2.0`. -/
theorem test_witness_rangef :
    (Binary32.finite 0x80000000#32 = true ∧ Binary32.finite 0x00000001#32 = true ∧
      Binary32.less 0x80000000#32 0x00000001#32 = true ∧
      Binary32.finite (Binary32.sub 0x00000001#32 0x80000000#32) = true) ∧
    legalRangeF FloatOps.ieee 0x80000000#32 0x00000001#32 = true ∧
    legalRangeF FloatOps.ieee 0x3F800000#32 0x40000000#32 = true := by decide +kernel
/-- FloatOrderIsTheOrderOfValues, FloatSumIsNearest. -/
theorem test_witness_float : Binary32.finite 0x7F7FFFFF#32 = true ∧ Binary32.finite 0x3F800000#32 = true ∧
    Binary32.finite (Binary32.add 0x7F7FFFFF#32 0x3F800000#32) = true ∧
    Binary32.isNaN 0x7F800001#32 = true := by decide +kernel
/-- RangefOverTheUnitIntervalIsNextf: with bits above the low 32 that MT64 ignores. -/
theorem test_witness_unitInterval : (zeroState.inst .mt64).seeded = true ∧
    (0xFFFFFFFF00000000#64).extractLsb' 0 32 = 0x00000000#32 ∧
    (0x000000013F800000#64).extractLsb' 0 32 = 0x3F800000#32 ∧
    FirstAccepted (zeroState.inst .mt64) 16777216 0 :=
  ⟨rfl, by decide, by decide, firstAccepted_zero .mt64 _ (by decide) (by decide)⟩
/-- CommandsOfOneInstanceDoNotTouchTheOther: two states with the same MT32 instance. -/
theorem test_witness_instances : ∃ t t', exec (.extract .mt32 0#32 0#32) zeroState = .next t ∧
    exec (.extract .mt32 0#32 0#32) (busyState []) = .next t' ∧
    ({ busyState [] with mt32 := zeroInst _ } : State).inst .mt32 = zeroState.inst .mt32 :=
  ⟨_, _, rfl, rfl, rfl⟩
/-- ReadingCommandsFrame: a command that runs no TWIST. -/
theorem test_witness_frame : ∃ t, exec (.next .mt32 7#32 0#32) (streamState 1) = .next t ∧
    (Instr.next .mt32 7#32 0#32).op ≠ .seed ∧
    (t.inst .mt32).twists = ((streamState 1).inst .mt32).twists ∧
    (t.inst .mt32).extracts = ((streamState 1).inst .mt32).extracts + 4 :=
  ⟨_, rfl, by decide, by decide +kernel, by decide +kernel⟩
/-- CommandsKeepWellFormedSeededStates: a cursor at `N`. -/
theorem test_witness_wellFormed : ((streamState 624).inst .mt32).wellFormedSeeded ∧
    ∃ t, exec (.extract .mt32 0#32 0#32) (streamState 624) = .next t :=
  ⟨⟨rfl, by decide⟩, _, rfl⟩
/-- EveryStepKeepsTheInvariant. -/
theorem test_witness_invariant : zeroState.Inv ∧ ∃ t, step zeroState = .next t := ⟨zeroState_inv, _, rfl⟩

end Sys2Proof.Tests
end

/-! PROOFS. The statements about the scope of the model (00_scope.md): the constant table's masks (R7), the
totality of the step and the loop that never ends (R12). -/

namespace Sys2Proof.Machine

variable {P : Params}

/-! ### The twist masks (R7, R78) -/

theorem lowMask_toNat (P : Params) : P.lowMask.toNat = 2 ^ P.R - 1 := by
  have hlt : 2 ^ P.R < 2 ^ P.W := Nat.pow_lt_pow_right Nat.one_lt_two P.R_lt
  exact Nat.mod_eq_of_lt (Nat.lt_of_le_of_lt (Nat.sub_le _ _) hlt)

theorem highMask_toNat (P : Params) : P.highMask.toNat = 2 ^ P.W - 2 ^ P.R :=
  Nat.mod_eq_of_lt (Nat.sub_lt (Nat.two_pow_pos _) (Nat.two_pow_pos _))

/-- `LOW_BITS_MASK` is the bits below `R`. -/
theorem lowMask_getLsbD (P : Params) (i : Nat) : P.lowMask.getLsbD i = decide (i < P.R) := by
  rw [← BitVec.testBit_toNat, lowMask_toNat, Nat.testBit_two_pow_sub_one]

/-- The two masks are complements of each other (R7 (b)): every other fact about them follows from this one. -/
theorem highMask_eq_not_lowMask (P : Params) : P.highMask = ~~~P.lowMask := by
  have hR := Nat.two_pow_pos P.R
  have hle : 2 ^ P.R ≤ 2 ^ P.W := Nat.pow_le_pow_right Nat.two_pos P.R_lt.le
  apply BitVec.eq_of_toNat_eq
  rw [BitVec.toNat_not, highMask_toNat, lowMask_toNat]
  omega

theorem highMask_and_lowMask (P : Params) : P.highMask &&& P.lowMask = 0 := by
  rw [highMask_eq_not_lowMask, BitVec.and_comm]
  exact BitVec.and_not_self _

theorem highMask_or_lowMask (P : Params) : P.highMask ||| P.lowMask = BitVec.allOnes P.W := by
  rw [highMask_eq_not_lowMask, BitVec.or_comm]
  exact BitVec.or_not_self _

/-- The two masked terms share no bit, so their sum never carries (R78 (a)). -/
theorem twistY_eq_or (cur nxt : Word P.W) :
    twistY cur nxt = (cur &&& P.highMask) ||| (nxt &&& P.lowMask) := by
  have hdisjoint : (cur &&& P.highMask) &&& (nxt &&& P.lowMask) = 0 := by
    calc (cur &&& P.highMask) &&& (nxt &&& P.lowMask)
        = (cur &&& nxt) &&& (P.highMask &&& P.lowMask) := by ac_rfl
      _ = 0 := by rw [highMask_and_lowMask]; exact BitVec.and_zero
  exact BitVec.add_eq_or_of_and_eq_zero _ _ hdisjoint

/-- The bits of `y` below `R` are the next word's (R78 (c)). -/
theorem twistY_getLsbD_of_lt (cur nxt : Word P.W) (i : Nat) (h : i < P.R) :
    (twistY cur nxt).getLsbD i = nxt.getLsbD i := by
  simp [twistY_eq_or, highMask_eq_not_lowMask, lowMask_getLsbD, h]

/-! ### The rejection loop that ends, and the one that does not (R12, R101) -/

/-- A sampling loop ends exactly when some word of the stream passes its test. -/
theorem sample_phase_idle_iff (ops : FloatOps) (n : Nat) (fin : Finish P) (g : Inst P) :
    (sample ops n fin g).phase = .idle ↔ ∃ k, drawn g k < limit P n := by
  rw [phase_idle_iff]
  obtain ⟨k, hk, e⟩ | ⟨hrej, e⟩ := sample_cases ops n fin g
  · exact iff_of_true (by rw [e]; rfl) ⟨k, hk.1⟩
  · exact iff_of_false (by simp [e]) fun ⟨k, hk⟩ => Nat.not_lt.mpr (hrej k) hk

/-- A sampling loop that has not ended adds no response in any number of further iterations. -/
theorem sample_responses_of_not_idle (ops : FloatOps) (n : Nat) (fin : Finish P) (g : Inst P)
    (h : (sample ops n fin g).phase ≠ .idle) (m : Nat) :
    ((sampleIter ops)^[m] (sample ops n fin g)).responses = g.responses := by
  have hrej : ∀ k, limit P n ≤ drawn g k := fun k =>
    Nat.not_lt.mp fun hk => h ((sample_phase_idle_iff ops n fin g).mpr ⟨k, hk⟩)
  rw [sample_noneAccepted ops n fin g hrej, iterate_sampleIter_rejected ops _ ⟨n, fin⟩ rfl]
  · simp
  · intro k
    rw [drawn_withJob, drawn_afterExtracts]
    exact hrej _

/-- Once seeded, NEXT with a legal divisor is its sampling loop (R94, R95). -/
theorem exec_next_legal (v : Variant) (a b : Word v.W) (s : State) (hs : (s.inst v).seeded = true)
    (h1 : 1 ≤ a.toNat) (h2 : a.toNat ≤ v.params.MAX) :
    exec (.next v a b) s = .next (s.setInst v (sample floatOps a.toNat .next (s.inst v))) := by
  rw [exec_next, (legalDivisor_iff a).mpr ⟨h1, h2⟩, guarded_legal _ _ hs]

end Sys2Proof.Machine

namespace Sys2Proof.Scope

open Sys2Proof.Machine

/-- Settles O25: the masks are complements, which gives the disjointness and the OR; `y` keeps the low bits of
the next word, and both variants have `0 < R`. -/
theorem twistTermsNeverCarry : Obligations.TwistTermsNeverCarry := by
  refine ⟨fun P => ⟨highMask_and_lowMask P, highMask_or_lowMask P, twistY_eq_or⟩, fun v cur nxt => ?_⟩
  exact twistY_getLsbD_of_lt cur nxt 0 (by cases v <;> decide)

/-- Settles O32: NEXT is its sampling loop, and waiting is more iterations of that loop. -/
theorem nextEndsExactlyWhenAWordIsAccepted : Obligations.NextEndsExactlyWhenAWordIsAccepted := by
  intro v a b s hs h1 h2
  refine ⟨_, exec_next_legal v a b s hs h1 h2, ?_, ?_⟩
  · rw [State.inst_setInst]
    exact sample_phase_idle_iff floatOps a.toNat .next (s.inst v)
  · rw [State.inst_setInst]
    exact sample_responses_of_not_idle floatOps a.toNat .next (s.inst v)

/-- Settles O11: by cases on what the caller presents. A command that is taken answers a next state by
`exec_eq`, one that waits by `step_waits`; a reset and an empty port answer one by definition. -/
theorem everyStepGoesOn : Obligations.EveryStepGoesOn := by
  intro s
  match hc : s.caller with
  | [] => exact ⟨_, by rw [step, hc]; rfl⟩
  | .reset v :: rest => exact ⟨_, by rw [step, hc]; rfl⟩
  | .resetDuring v _ :: rest => exact ⟨_, by rw [step, hc]; rfl⟩
  | .command v cmd :: rest =>
    cases hj : (s.inst v).job with
    | none => exact ⟨_, (step_command s v cmd rest hc hj).trans (exec_eq _ _)⟩
    | some j => exact ⟨_, step_waits s v cmd rest hc (by rw [hj]; rfl)⟩

end Sys2Proof.Scope

/-! PROOFS. The statements about the state (10_state.md): the reset state (R33, R34), who writes the flag (R25), the
independence of the two generators (R26), the frame of the reading commands (R22, R24, R30), well-formed states
(R35), and the invariant that every step keeps. -/

namespace Sys2Proof.Machine

variable {P : Params}

/-! ### The reset state (R33, R34, R140) -/

@[simp] theorem Inst.atReset_phase (k : Nat) : (Inst.atReset P k).phase = .idle := rfl
@[simp] theorem Inst.atReset_contents (k : Nat) : (Inst.atReset P k).contents = none := rfl

theorem Inst.reset_eq (g : Inst P) : g.reset = Inst.atReset P (g.resets + 1) := rfl

/-- The step that takes a reset, presented alone or before the response of a command (R140, R142). -/
theorem step_reset (s : State) (v : Variant) (rest : List Event)
    (hc : s.caller = .reset v :: rest ∨ ∃ cmd, s.caller = .resetDuring v cmd :: rest) :
    step s = .next ((s.taken rest).onInst v Inst.reset) := by
  obtain hc | ⟨cmd, hc⟩ := hc <;> rw [step, hc] <;> rfl

/-! ### The cursor and the array under extractions (R24, R87) -/

/-- What an extraction does to the cursor, the array and the count of TWISTs. -/
theorem extract_cursor_cases (g : Inst P) :
    (g.index.toNat < P.N ∧ (extract g).2.index.toNat = g.index.toNat + 1 ∧
      (extract g).2.words = g.words ∧ (extract g).2.twists = g.twists) ∨
    (P.N ≤ g.index.toNat ∧ (extract g).2.index.toNat = 1 ∧ (extract g).2.twists = g.twists + 1) := by
  obtain ⟨h, e⟩ | ⟨h, e⟩ := extract_cases g
  · exact .inl ⟨h, by rw [e]; exact toNat_index_succ _ h, by rw [e], by rw [e]⟩
  · exact .inr ⟨h, by rw [e]; exact toNat_index_one P, by rw [e]⟩

theorem extract_index_le (g : Inst P) : (extract g).2.index.toNat ≤ P.N := by
  have := P.N_pos
  obtain ⟨h, hi, -, -⟩ | ⟨-, hi, -⟩ := extract_cursor_cases g <;> omega

theorem extract_index_pos (g : Inst P) : 0 < (extract g).2.index.toNat := by
  obtain ⟨-, hi, -, -⟩ | ⟨-, hi, -⟩ := extract_cursor_cases g <;> omega

theorem extract_twists_le (g : Inst P) : g.twists ≤ (extract g).2.twists := by
  obtain ⟨-, -, -, ht⟩ | ⟨-, -, ht⟩ := extract_cursor_cases g <;> omega

theorem afterExtracts_index_le (g : Inst P) (h : g.index.toNat ≤ P.N) (k : Nat) :
    (afterExtracts k g).index.toNat ≤ P.N := by
  cases k with
  | zero => exact h
  | succ k => exact extract_index_le _

theorem afterExtracts_twists_le (g : Inst P) (k : Nat) : g.twists ≤ (afterExtracts k g).twists := by
  induction k with
  | zero => exact Nat.le_refl _
  | succ k ih => exact Nat.le_trans ih (extract_twists_le _)

/-- As long as no TWIST runs, extractions leave the array and move the cursor up by one each (R22, R24). -/
theorem afterExtracts_of_twists_eq (g : Inst P) (k : Nat) (h : (afterExtracts k g).twists = g.twists) :
    (afterExtracts k g).words = g.words ∧ (afterExtracts k g).index.toNat = g.index.toNat + k := by
  induction k with
  | zero => exact ⟨rfl, rfl⟩
  | succ k ih =>
    have hk := afterExtracts_twists_le g k
    simp only [afterExtracts] at h ⊢
    obtain ⟨-, hi, hw, ht⟩ | ⟨-, -, ht⟩ := extract_cursor_cases (afterExtracts k g)
    · obtain ⟨ihw, ihi⟩ := ih (by omega)
      exact ⟨hw.trans ihw, by omega⟩
    · omega

/-! ### Which divisors the sampling commands latch (R95, R105, R109) -/

/-- A legal divisor (R95), as a bound on numbers. -/
def LegalN (P : Params) (n : Nat) : Prop := 1 ≤ n ∧ n ≤ P.MAX

/-- `CHUNKS` is a legal divisor in every variant (R105). -/
theorem legalN_CHUNKS (P : Params) : LegalN P CHUNKS := by
  have hpow : 2 ^ 31 ≤ 2 ^ (P.W - 1) := Nat.pow_le_pow_right Nat.two_pos (by have := P.W_ge; omega)
  have hmax := MAX_succ P
  unfold LegalN CHUNKS
  omega

/-- The divisor of RANGE with legal bounds is their true difference, so it is legal (R109). -/
theorem legalN_rangeDivisor {a b : Word P.W} (h : legalRange a b = true) :
    LegalN P (uval (rangeDivisor a b)) := by
  simp only [legalRange, sval, Bool.and_eq_true, decide_eq_true_eq] at h
  have hW := two_pow_W P
  have hmax := MAX_succ P
  have hdiff : (b - a).toInt = b.toInt - a.toInt := by
    rw [BitVec.toInt_sub]
    exact Int.bmod_eq_of_le (by omega) (by omega)
  refine (legalDivisor_iff (b - a)).mp (decide_eq_true ?_)
  rw [sval, hdiff]
  omega

/-! ### What a command other than SEED can do to its generator -/

/-- The generators that EXTRACT, NEXT, NEXTF, RANGE, RANGEF and the reserved codes can leave of `g`. -/
inductive Reads (g : Inst P) : Inst P → Prop where
  /-- a fault: its response alone (R124) -/
  | faulted (st : Status) (h : st ≠ .ok) : Reads g (g.respond st none)
  /-- EXTRACT (R85) -/
  | extracted (hs : g.seeded = true) (x : Word P.W) : Reads g ((extract g).2.respond .ok (some x))
  /-- a sampling command that has accepted a draw (R98) -/
  | sampled (hs : g.seeded = true) (k : Nat) (x : Word P.W) : Reads g (afterSample g k x)
  /-- a sampling command still in SAMPLING (R101) -/
  | sampling (hs : g.seeded = true) (k : Nat) (j : Job P) (hj : LegalN P j.n) :
    Reads g { afterExtracts k g with job := some j }

theorem reads_sample (ops : FloatOps) {n : Nat} (fin : Finish P) {g : Inst P} (hs : g.seeded = true)
    (hn : LegalN P n) : Reads g (sample ops n fin g) := by
  obtain ⟨k, -, e⟩ | ⟨-, e⟩ := sample_cases ops n fin g
  · rw [e]; exact .sampled hs k _
  · rw [e]; exact .sampling hs _ ⟨n, fin⟩ hn

theorem reads_guarded {legal : Bool} {body : Inst P → Inst P} {g : Inst P}
    (h : g.seeded = true → legal = true → Reads g (body g)) : Reads g (guarded legal body g) := by
  obtain ⟨-, e⟩ | ⟨-, -, e⟩ | ⟨hs, hl, e⟩ := guarded_cases legal body g
  · rw [e]; exact .faulted _ (by decide)
  · rw [e]; exact .faulted _ (by decide)
  · rw [e]; exact h hs hl

theorem reads_command (i : Instr) (h : i.op ≠ .seed) (g : Inst i.variant.params) :
    Reads g (command i g) := by
  cases i with
  | seed v a b => exact absurd rfl h
  | extract v a b => exact reads_guarded fun hs _ => .extracted hs _
  | next v a b => exact reads_guarded fun hs hl => reads_sample _ _ hs ((legalDivisor_iff a).mp hl)
  | nextf v a b => exact reads_guarded fun hs _ => reads_sample _ _ hs (legalN_CHUNKS _)
  | range v a b => exact reads_guarded fun hs hl => reads_sample _ _ hs (legalN_rangeDivisor hl)
  | rangef v a b => exact reads_guarded fun hs _ => reads_sample _ _ hs (legalN_CHUNKS _)
  | reserved000 v a b => exact .faulted _ (by decide)
  | reserved111 v a b => exact .faulted _ (by decide)

/-- SEED is the one command whose operation is `seed`. -/
theorem exists_command_eq_seedCommand (i : Instr) (h : i.op = .seed) :
    ∃ a : Word i.variant.params.W, command i = seedCommand a := by
  cases i with
  | seed v a b => exact ⟨a, rfl⟩
  | extract | next | nextf | range | rangef | reserved000 | reserved111 => nomatch h

/-! ### The frame of those commands (R22, R24, R25, R30), and well-formed states (R35) -/

/-- A command's extractions and its response as one frame, from `g` before the command to `g'` after it. -/
def ReadFrame (g g' : Inst P) : Prop :=
  g'.seeded = g.seeded ∧ g'.resets = g.resets ∧
    (g'.responses = g.responses ∨ ∃ r, g'.responses = r :: g.responses) ∧
    g.extracts ≤ g'.extracts ∧ g.twists ≤ g'.twists ∧
    (g'.twists = g.twists →
      g'.words = g.words ∧ g'.index.toNat = g.index.toNat + (g'.extracts - g.extracts))

theorem readFrame_afterExtracts (g : Inst P) (k : Nat) : ReadFrame g (afterExtracts k g) := by
  refine ⟨afterExtracts_seeded g k, afterExtracts_resets g k, .inl (afterExtracts_responses g k), ?_,
    afterExtracts_twists_le g k, fun ht => ?_⟩
  · rw [afterExtracts_extracts]; omega
  · rw [afterExtracts_extracts, Nat.add_sub_cancel_left]
    exact afterExtracts_of_twists_eq g k ht

/-- One response on top keeps the frame of a generator that had added none, whatever loop it ends. -/
theorem ReadFrame.respond {g g' : Inst P} (h : ReadFrame g g') (hr : g'.responses = g.responses)
    (job : Option (Job P)) (st : Status) (x : Option (Word P.W)) :
    ReadFrame g (({ g' with job := job } : Inst P).respond st x) := by
  obtain ⟨hs, hres, -, he, ht, hsame⟩ := h
  exact ⟨hs, hres, .inr ⟨_, congrArg _ hr⟩, he, ht, hsame⟩

theorem Reads.frame {g g' : Inst P} (h : Reads g g') : ReadFrame g g' := by
  cases h with
  | faulted st _ => exact (readFrame_afterExtracts g 0).respond rfl g.job st none
  | extracted _ x => exact (readFrame_afterExtracts g 1).respond (by simp) _ .ok _
  | sampled _ k x => exact (readFrame_afterExtracts g (k + 1)).respond (by simp) none .ok _
  | sampling _ k j _ => exact readFrame_afterExtracts g k

theorem Reads.seeded_eq {g g' : Inst P} (h : Reads g g') : g'.seeded = g.seeded := by
  obtain ⟨hs, -⟩ := h.frame
  exact hs

theorem Reads.wellFormedSeeded {g g' : Inst P} (h : Reads g g') (hg : g.wellFormedSeeded) :
    g'.wellFormedSeeded := by
  obtain ⟨hs, hi⟩ := hg
  refine ⟨h.seeded_eq.trans hs, ?_⟩
  cases h with
  | faulted st _ => exact hi
  | extracted _ x => exact extract_index_le g
  | sampled _ k x => exact extract_index_le _
  | sampling _ k j _ => exact afterExtracts_index_le g hi k

theorem seedCommand_wellFormedSeeded (a : Word P.W) (g : Inst P) : (seedCommand a g).wellFormedSeeded :=
  ⟨seedCommand_seeded a g, by rw [seedCommand_index, toNat_index_N]⟩

/-! ### The seeded flag (R25) -/

theorem Inst.wait_seeded (g : Inst P) : g.wait.seeded = g.seeded := by
  obtain ⟨-, e⟩ | ⟨j, -, -, e⟩ | ⟨j, -, -, e⟩ := sampleIter_cases floatOps g <;>
    rw [Inst.wait, e] <;> simp [afterSample]

theorem State.seeded_onInst (s : State) (v v' : Variant) (f : Inst v.params → Inst v.params)
    (h : v' = v → (f (s.inst v)).seeded = (s.inst v).seeded) :
    ((s.onInst v f).inst v').seeded = (s.inst v').seeded := by
  by_cases hv : v' = v
  · subst hv
    rw [State.inst_onInst, h rfl]
  · rw [State.inst_onInst_of_ne s f hv]

theorem State.seeded_onInst_wait (s : State) (v v' : Variant) :
    ((s.onInst v Inst.wait).inst v').seeded = (s.inst v').seeded :=
  s.seeded_onInst v v' _ fun _ => Inst.wait_seeded _

theorem decode_variant (v : Variant) (cmd : CommandWord v) : (decode v cmd).variant = v :=
  Op.variant_instr _ _ _ _

/-- A SEED taken for generator `v` sets its flag. -/
theorem State.seeded_onInst_of_seed (s : State) {i : Instr} {v : Variant} (hv : i.variant = v)
    (h : i.op = .seed) : ((s.onInst i.variant (command i)).inst v).seeded = true := by
  subst hv
  obtain ⟨a, e⟩ := exists_command_eq_seedCommand i h
  rw [State.inst_onInst, e, seedCommand_seeded]

/-- A command that is no SEED for generator `v` leaves its flag. -/
theorem State.seeded_onInst_command (s : State) (i : Instr) (v : Variant) (h : i.variant = v → i.op ≠ .seed) :
    ((s.onInst i.variant (command i)).inst v).seeded = (s.inst v).seeded :=
  s.seeded_onInst i.variant v _ fun hv => (reads_command i (h hv.symm) _).seeded_eq

/-! ### The invariant (R24, R30, R33, R91, R95, R122) -/

theorem Inst.atReset_inv (k : Nat) : (Inst.atReset P k).Inv where
  cursor := nofun
  counters := nofun
  drawnFrom := nofun
  unseeded _ := ⟨rfl, rfl, rfl⟩
  onlyFaults _ := nofun
  results := nofun
  divisor := nofun

/-- A fault response keeps the invariant, whatever the flag: it has no result. -/
theorem respond_fault_inv {g : Inst P} (h : g.Inv) {st : Status} (hst : st ≠ .ok) :
    (g.respond st none).Inv where
  cursor := h.cursor
  counters := h.counters
  drawnFrom := h.drawnFrom
  unseeded := h.unseeded
  onlyFaults hs := List.forall_mem_cons.mpr ⟨hst, h.onlyFaults hs⟩
  results := List.forall_mem_cons.mpr ⟨nofun, h.results⟩
  divisor := h.divisor

/-- An OK response keeps the invariant of a seeded generator. -/
theorem respond_ok_inv {g : Inst P} (h : g.Inv) (hs : g.seeded = true) (x : Option (Word P.W)) :
    (g.respond .ok x).Inv where
  cursor := h.cursor
  counters := h.counters
  drawnFrom := h.drawnFrom
  unseeded hu := absurd hs (by simpa using hu)
  onlyFaults hu := absurd hs (by simpa using hu)
  results := List.forall_mem_cons.mpr ⟨fun _ => rfl, h.results⟩
  divisor := h.divisor

/-- Entering or leaving SAMPLING keeps the invariant of a seeded generator, if the divisor is legal. -/
theorem withJob_inv {g : Inst P} (h : g.Inv) (hs : g.seeded = true) (job : Option (Job P))
    (hj : ∀ j, job = some j → LegalN P j.n) : ({ g with job := job } : Inst P).Inv where
  cursor := h.cursor
  counters := h.counters
  drawnFrom := h.drawnFrom
  unseeded hu := absurd hs (by simpa using hu)
  onlyFaults := h.onlyFaults
  results := h.results
  divisor := hj

/-- An extraction moves the cursor in step with the counters: a TWIST stands for `N` more words (R91). -/
theorem extract_inv {g : Inst P} (h : g.Inv) (hs : g.seeded = true) : (extract g).2.Inv where
  cursor _ := extract_index_le g
  counters _ := by
    have hcur := h.cursor hs
    have hcount := h.counters hs
    obtain ⟨-, hi, -, ht⟩ | ⟨hN, hi, ht⟩ := extract_cursor_cases g
    · rw [extract_extracts, hi, ht]; omega
    · rw [extract_extracts, hi, ht, Nat.mul_succ]; omega
  drawnFrom _ _ := extract_index_pos g
  unseeded hu := absurd hs (by simpa using hu)
  onlyFaults hu := absurd hs (by simpa using hu)
  results := by rw [extract_responses]; exact h.results
  divisor := by rw [extract_job]; exact h.divisor

theorem afterExtracts_inv {g : Inst P} (h : g.Inv) (hs : g.seeded = true) (k : Nat) :
    (afterExtracts k g).Inv := by
  induction k with
  | zero => exact h
  | succ k ih => exact extract_inv ih (by simpa using hs)

theorem afterSample_inv {g : Inst P} (h : g.Inv) (hs : g.seeded = true) (k : Nat) (x : Word P.W) :
    (afterSample g k x).Inv := by
  have hs' : (afterExtracts (k + 1) g).seeded = true := by simpa using hs
  exact respond_ok_inv (withJob_inv (afterExtracts_inv h hs (k + 1)) hs' none nofun) hs' _

theorem Reads.inv {g g' : Inst P} (hr : Reads g g') (h : g.Inv) : g'.Inv := by
  cases hr with
  | faulted st hst => exact respond_fault_inv h hst
  | extracted hs x => exact respond_ok_inv (extract_inv h hs) (by simpa using hs) _
  | sampled hs k x => exact afterSample_inv h hs k x
  | sampling hs k j hj =>
    exact withJob_inv (afterExtracts_inv h hs k) (by simpa using hs) _ (by rintro _ ⟨⟩; exact hj)

/-- SEED marks the cursor exhausted with nothing extracted, and keeps the responses that stood before it. -/
theorem seedCommand_inv (a : Word P.W) {g : Inst P} (h : g.Inv) : (seedCommand a g).Inv where
  cursor _ := by rw [seedCommand_index, toNat_index_N]
  counters _ := by
    rw [seedCommand_index, toNat_index_N, seedCommand_extracts, seedCommand_twists, Nat.mul_zero]
  drawnFrom _ := nofun
  unseeded := nofun
  onlyFaults := nofun
  results := List.forall_mem_cons.mpr ⟨nofun, h.results⟩
  divisor := h.divisor

theorem command_inv (i : Instr) {g : Inst i.variant.params} (h : g.Inv) : (command i g).Inv := by
  by_cases hop : i.op = .seed
  · obtain ⟨a, e⟩ := exists_command_eq_seedCommand i hop
    rw [e]
    exact seedCommand_inv a h
  · exact (reads_command i hop g).inv h

/-- Only a seeded generator runs a loop, so one more iteration of it keeps the invariant. -/
theorem Inst.wait_inv {g : Inst P} (h : g.Inv) : g.wait.Inv := by
  have hseeded : ∀ j, g.job = some j → g.seeded = true := fun j hj => by
    by_contra hs
    obtain ⟨-, -, hnone⟩ := h.unseeded (by simpa using hs)
    simp [hnone] at hj
  obtain ⟨-, e⟩ | ⟨j, hj, -, e⟩ | ⟨j, hj, -, e⟩ := sampleIter_cases floatOps g
  · rw [Inst.wait, e]; exact h
  · rw [Inst.wait, e]; exact afterSample_inv h (hseeded j hj) 0 _
  · rw [Inst.wait, e]; exact extract_inv h (hseeded j hj)

theorem State.Inv.onInst {s : State} (h : s.Inv) {v : Variant} {f : Inst v.params → Inst v.params}
    (hf : (s.inst v).Inv → (f (s.inst v)).Inv) : (s.onInst v f).Inv := by
  intro v'
  by_cases hv : v' = v
  · subst hv
    rw [State.inst_onInst]
    exact hf (h v')
  · rw [State.inst_onInst_of_ne s f hv]
    exact h v'

theorem State.Inv.taken {s : State} (h : s.Inv) (rest : List Event) : (s.taken rest).Inv := fun v => by
  rw [State.inst_taken]
  exact h v

end Sys2Proof.Machine

namespace Sys2Proof.StateRules

open Sys2Proof.Machine

/-- Settles O54: by cases on what the step did. The invariant is one generator's, so each case is that `wait`,
`command` or `reset` keeps it. -/
theorem everyStepKeepsTheInvariant : Obligations.EveryStepKeepsTheInvariant := by
  intro s t h hstep
  obtain ⟨-, rfl⟩ | ⟨v, cmd, rest, -, -, rfl⟩ | ⟨v, cmd, rest, -, -, rfl⟩ | ⟨v, rest, -, rfl⟩ :=
    step_cases s t hstep
  · exact (h.onInst Inst.wait_inv).onInst Inst.wait_inv
  · exact h.onInst Inst.wait_inv
  · exact (h.taken rest).onInst (command_inv _)
  · exact (h.taken rest).onInst fun _ => Inst.atReset_inv _

/-- Settles O55: a generator at reset meets the invariant whatever its free values are. -/
theorem resetMeetsTheInvariant : Obligations.ResetMeetsTheInvariant := by
  intro v
  rw [State.inst_reset]
  exact Inst.atReset_inv 0

/-- Settles O9: each generator is `Inst.atReset`, whose fields R33 gives. -/
theorem resetStateIsUnseededAndIdle : Obligations.ResetStateIsUnseededAndIdle :=
  ⟨rfl, fun v => by simp [State.inst_reset]⟩

/-- Settles O10: the step takes the event and puts `Inst.atReset` in the place of its generator alone. -/
theorem resetEventLeavesTheResetState : Obligations.ResetEventLeavesTheResetState := by
  intro s v rest hc
  have hother : ∀ v', v' ≠ v → ((s.taken rest).onInst v Inst.reset).inst v' = s.inst v' :=
    fun v' hv => by rw [State.inst_onInst_of_ne _ _ hv, State.inst_taken]
  refine ⟨_, step_reset s v rest hc, by simp, ?_⟩
  simpa [Inst.reset_eq] using hother

/-- Settles O12: by cases on what the step did. Only a reset of `v` and a SEED taken for `v` write its flag. -/
theorem seededIsWrittenByResetAndSeedOnly : Obligations.SeededIsWrittenByResetAndSeedOnly := by
  intro s t v hstep isReset takesSeed
  obtain ⟨hc, rfl⟩ | ⟨w, cmd, rest, hc, hbusy, rfl⟩ | ⟨w, cmd, rest, hc, hidle, rfl⟩ | ⟨w, rest, hc, rfl⟩ :=
    step_cases s t hstep
  case inl => -- nothing is presented
    refine ⟨?_, ?_, fun _ _ => by rw [State.seeded_onInst_wait, State.seeded_onInst_wait]⟩
    · rintro ⟨_, hr | ⟨_, hr⟩⟩ <;> cases hc.symm.trans hr
    · rintro ⟨-, _, _, hr, -⟩
      cases hc.symm.trans hr
  case inr.inl => -- a command waits
    refine ⟨?_, ?_, fun _ _ => State.seeded_onInst_wait s w v⟩
    · rintro ⟨_, hr | ⟨_, hr⟩⟩ <;> cases hc.symm.trans hr
    · rintro ⟨hphase, _, _, hr, -⟩
      cases hc.symm.trans hr
      exact nomatch hphase.symm.trans ((busy_iff _).mp hbusy)
  case inr.inr.inl => -- a command is taken
    refine ⟨?_, ?_, fun _ hno => ?_⟩
    · rintro ⟨_, hr | ⟨_, hr⟩⟩ <;> cases hc.symm.trans hr
    · rintro ⟨-, _, _, hr, hop⟩
      cases hc.symm.trans hr
      exact State.seeded_onInst_of_seed _ (decode_variant v _) hop
    · rw [State.seeded_onInst_command, State.inst_taken]
      intro hv hop
      obtain rfl : w = v := (decode_variant w cmd).symm.trans hv
      exact hno ⟨by simpa [Inst.busy, phase_idle_iff] using hidle, cmd, rest, hc, hop⟩
  case inr.inr.inr => -- a reset
    refine ⟨?_, ?_, fun hno _ => ?_⟩
    · rintro ⟨_, hr⟩
      obtain rfl : w = v := by
        obtain hc | ⟨_, hc⟩ := hc <;> obtain hr | ⟨_, hr⟩ := hr <;> cases hc.symm.trans hr <;> rfl
      rw [State.inst_onInst, Inst.reset_eq, Inst.atReset_seeded]
    · rintro ⟨-, _, _, hr, -⟩
      obtain hc | ⟨_, hc⟩ := hc <;> cases hc.symm.trans hr
    · have hv : v ≠ w := by
        rintro rfl
        exact hno ⟨rest, hc⟩
      rw [State.inst_onInst_of_ne _ _ hv, State.inst_taken]

/-- Settles O51: `exec` updates the command's own generator by `command` and nothing else. -/
theorem commandsOfOneInstanceDoNotTouchTheOther :
    Obligations.CommandsOfOneInstanceDoNotTouchTheOther := by
  intro i s s' t t' h h'
  rw [exec_eq] at h h'
  cases h
  cases h'
  refine ⟨State.caller_onInst _ _ _, fun v hv => State.inst_onInst_of_ne _ _ hv, fun e => ?_⟩
  rw [State.inst_onInst, State.inst_onInst, e]

/-- Settles O52: by cases on what a command other than SEED can do; all of it is extractions, and at most one
response. -/
theorem readingCommandsFrame : Obligations.ReadingCommandsFrame := by
  intro i s t hop h
  rw [exec_eq] at h
  cases h
  rw [State.inst_onInst]
  exact (reads_command i hop _).frame

/-- Settles O53: SEED puts the cursor at `N`; the other commands keep the flag and only extract. -/
theorem commandsKeepWellFormedSeededStates : Obligations.CommandsKeepWellFormedSeededStates := by
  intro i s t h hpre
  rw [exec_eq] at h
  cases h
  rw [State.inst_onInst]
  by_cases hop : i.op = .seed
  · obtain ⟨a, e⟩ := exists_command_eq_seedCommand i hop
    rw [e]
    exact seedCommand_wellFormedSeeded a _
  · exact (reads_command i hop _).wellFormedSeeded (hpre.resolve_left hop)

end Sys2Proof.StateRules

/-! PROOFS. The statements about memory and its ordering (20_memory.md): the addresses TWIST reads (R42) and the
in-place order (R49). -/

namespace Sys2Proof.Machine

variable {P : Params}

/-! ### The addresses of TWIST (R42) -/

theorem nextAddr_val (i : Fin P.N) : (nextAddr i).val = (i.val + 1) % P.N := rfl

theorem farAddr_val (i : Fin P.N) : (farAddr i).val = (i.val + P.M) % P.N := rfl

theorem nextAddr_val_of_lt (i : Fin P.N) (h : i.val + 1 < P.N) : (nextAddr i).val = i.val + 1 :=
  Nat.mod_eq_of_lt h

theorem nextAddr_val_of_last (i : Fin P.N) (h : i.val + 1 = P.N) : (nextAddr i).val = 0 := by
  rw [nextAddr_val, h, Nat.mod_self]

theorem farAddr_val_of_lt (i : Fin P.N) (h : i.val + P.M < P.N) : (farAddr i).val = i.val + P.M :=
  Nat.mod_eq_of_lt h

theorem farAddr_val_of_wrap (i : Fin P.N) (h : P.N ≤ i.val + P.M) : (farAddr i).val = i.val + P.M - P.N := by
  have hM := P.M_lt
  rw [farAddr_val, Nat.mod_eq_sub_mod h, Nat.mod_eq_of_lt (by omega)]

/-! ### What iteration `i` of TWIST reads (R49) -/

/-- A read at or above the iteration's own element returns the pre-twist word. -/
theorem twistUpTo_read_old (ws : Vector (Word P.W) P.N) (i a : Fin P.N) (j : Nat) (ha : a.val = j)
    (hij : i.val ≤ j) : (twistUpTo ws i i.isLt.le)[a] = ws[j]'(ha ▸ a.isLt) := by
  subst ha
  exact twistUpTo_getElem_of_le ws i i.isLt.le a a.isLt hij

/-- A read below the iteration's own element returns the word this TWIST has written. -/
theorem twistUpTo_read_new (ws : Vector (Word P.W) P.N) (i a : Fin P.N) (j : Nat) (ha : a.val = j)
    (hji : j < i.val) : (twistUpTo ws i i.isLt.le)[a] = (twistWords ws)[j]'(ha ▸ a.isLt) := by
  subst ha
  exact twistUpTo_getElem_of_lt ws i i.isLt.le a hji

end Sys2Proof.Machine

namespace Sys2Proof.Memory

open Sys2Proof.Machine

/-- Settles O23: each read is of an address at or above `i`, which is old, or of one that wrapped below `i`, which
is new. The last iteration is not the first one, as `0 < M < N`. -/
theorem twistReadsTheArrayInPlace : Obligations.TwistReadsTheArrayInPlace := by
  intro P ws i cur new
  have hM := P.M_pos
  have hMN := P.M_lt
  refine ⟨?own, fun h => ?next, fun h => ?last, fun h => ?far, fun h => ?wrapped⟩
  case own => exact twistUpTo_read_old ws i i i rfl (Nat.le_refl _)
  case next => exact twistUpTo_read_old ws i _ _ (nextAddr_val_of_lt i h) (by omega)
  case last => exact twistUpTo_read_new ws i _ _ (nextAddr_val_of_last i h) (by omega)
  case far => exact twistUpTo_read_old ws i _ _ (farAddr_val_of_lt i h) (by omega)
  case wrapped => exact twistUpTo_read_new ws i _ _ (farAddr_val_of_wrap i h) (by omega)

end Sys2Proof.Memory

/-! PROOFS. The statements about the encoding (30_encoding.md): decoder and encoder are inverse (R56, R57, R64), the
written syntax (R58, R65), and the step that runs a presented command (R64, R146). -/

namespace Sys2Proof

/-! ### Decoder and encoder (R56, R57, R64) -/

/-- The decoder on the layout of R56. -/
theorem decode_append (v : Variant) (x : BitVec 3) (a b : Word v.W) :
    decode v (x ++ (a ++ b)) = (Op.ofField x).instr v a b := by
  rw [decode, opField_append, aField_append, bField_append]

/-- A command is its operation with its two fields. -/
theorem Instr.instr_op (i : Instr) : i.op.instr i.variant i.fieldA i.fieldB = i := by
  cases i <;> rfl

theorem decode_encode (i : Instr) : decode i.variant (encode i) = i := by
  rw [encode, decode_append, Op.ofField_code, Instr.instr_op]

/-- The three fields partition the command word (R56). -/
theorem opField_append_aField_append_bField {v : Variant} (cmd : CommandWord v) :
    opField cmd ++ (aField cmd ++ bField cmd) = cmd := by
  rw [aField, bField, BitVec.extractLsb'_append_extractLsb'_eq_extractLsb' (Nat.zero_add _).symm]
  exact BitVec.extractLsb'_append_extractLsb'

/-- The encoder on a command built from its parts. As numbers: the two words are of widths given by two variants,
which are equal but not by definition. -/
theorem encode_instr_toNat (o : Op) (v : Variant) (a b : Word v.W) :
    (encode (o.instr v a b)).toNat = (o.code ++ (a ++ b)).toNat := by
  cases o <;> rfl

theorem encode_decode_toNat (v : Variant) (cmd : CommandWord v) :
    (encode (decode v cmd)).toNat = cmd.toNat := by
  rw [decode, encode_instr_toNat, Op.code_ofField, opField_append_aField_append_bField]

/-- A command of variant `v` is what its command word decodes to. -/
theorem eq_decode_of_encode_toNat_eq {i : Instr} {v : Variant} {cmd : CommandWord v} (hv : i.variant = v)
    (h : (encode i).toNat = cmd.toNat) : i = decode v cmd := by
  subst hv
  rw [← BitVec.eq_of_toNat_eq h, decode_encode]

/-! ### The written syntax (R58, R65) -/

/-- Integers that differ by `2^W` spell the same word (R65). -/
theorem ofInt_add_two_pow (n : Nat) (k : Int) : BitVec.ofInt n (k + 2 ^ n) = BitVec.ofInt n k := by
  apply BitVec.eq_of_toNat_eq
  rw [BitVec.toNat_ofInt, BitVec.toNat_ofInt, Int.natCast_pow, Nat.cast_ofNat, Int.add_emod_right]

/-- A float pattern written into an operand leaves every bit above the low 32 zero (R58). -/
theorem toNat_setWidth_lt (x : Bits32) (W : Nat) : (x.setWidth W).toNat < 2 ^ 32 := by
  rw [BitVec.toNat_setWidth]
  exact Nat.lt_of_le_of_lt (Nat.mod_le _ _) x.isLt

theorem Written.isCommand_assemble (w : Written) (v : Variant) : (w.assemble v).isCommand = true := by
  cases w <;> rfl

theorem Written.unusedZero_assemble (w : Written) (v : Variant) : (w.assemble v).unusedZero = true := by
  cases w with
  | RANGEF lo hi => simp only [assemble, Instr.unusedZero, toNat_setWidth_lt, decide_true, Bool.and_self]
  | SEED _ | EXTRACT | NEXT _ | NEXTF | RANGE _ _ => simp [assemble, Instr.unusedZero]

end Sys2Proof

namespace Sys2Proof.Encoding

open Sys2Proof.Machine

/-- Settles O2: the encoder lays out the code and the fields, and the decoder reads each of them back. -/
theorem decodeOfEncodeIsTheInstruction : Obligations.DecodeOfEncodeIsTheInstruction :=
  decode_encode

/-- Settles O3: the three fields are the whole word and each code is one operation's, so the decoded command encodes
to the word; any other command with that word decodes to itself. -/
theorem everyCommandWordIsTheWordOfOneInstruction :
    Obligations.EveryCommandWordIsTheWordOfOneInstruction := fun v cmd =>
  ⟨decode_variant v cmd, encode_decode_toNat v cmd, fun _ => eq_decode_of_encode_toNat_eq⟩

/-- Settles O5: an operand is read modulo `2^W`, and the syntax writes every unused bit as zero. -/
theorem writtenCommandsAssemble : Obligations.WrittenCommandsAssemble := by
  refine fun v => ⟨fun k => ?_, fun w => ?_⟩
  · rw [Written.assemble, Written.assemble, ofInt_add_two_pow]
  · rw [Instr.wellFormed, Written.isCommand_assemble, Written.unusedZero_assemble, Bool.and_self]

/-- Settles O1: the decoder reads the three fields back, and each code evaluates to its command. -/
theorem opFieldAloneSelectsTheCommand : Obligations.OpFieldAloneSelectsTheCommand := by
  intro v a b
  and_intros <;> exact decode_append v _ a b

/-- Settles O6: an idle instance takes the command, and taking the event writes the caller's list alone. -/
theorem stepRunsThePresentedCommand : Obligations.StepRunsThePresentedCommand := by
  intro s v cmd rest hc hidle
  exact ⟨step_command s v cmd rest hc ((phase_idle_iff _).mp hidle), State.caller_taken s rest,
    State.inst_taken s rest⟩

end Sys2Proof.Encoding

/-! PROOFS. The statements about SEED (40_seed.md): what Fill writes (R70, R71), its corner cases (R74), and that what
follows a SEED depends on the seed and the later commands alone (R73). -/

namespace Sys2Proof.Machine

variable {P : Params}

/-! ### The filled array (R71, R74) -/

theorem fill_getElem_zero (a : Word P.W) (ws : Vector (Word P.W) P.N) : (fill a ws)[0]'P.N_pos = a :=
  fill_getElem a ws 0 P.N_pos

/-- The recurrence of R71, read off the array Fill leaves. -/
theorem fill_getElem_succ (a : Word P.W) (ws : Vector (Word P.W) P.N) (i : Nat) (h : i + 1 < P.N) :
    (fill a ws)[i + 1] = fillNext (fill a ws)[i] (i + 1) := by
  rw [fill_getElem, fill_getElem, fillWord]

/-- After a zero word Fill writes the bare counter (R74). -/
theorem fillNext_zero (i : Nat) : fillNext (0 : Word P.W) i = word P.W i := by
  simp [fillNext]

theorem word_ne_zero {W k : Nat} (hpos : 0 < k) (hlt : k < 2 ^ W) : word W k ≠ 0 := fun h => by
  have hnat : k % 2 ^ W = 0 := by simpa using congrArg BitVec.toNat h
  rw [Nat.mod_eq_of_lt hlt] at hnat
  omega

/-- In both variants a word holds every index of the array. -/
theorem N_lt_two_pow_W (v : Variant) : v.params.N < 2 ^ v.params.W := by
  cases v <;> decide

/-! ### No command reads the past responses or the count of resets (R30, R73) -/

/-- The same generator with the responses `old` before its own, after `k` resets. -/
def Inst.withPast (old : List (Response P)) (k : Nat) (g : Inst P) : Inst P :=
  { g with responses := g.responses ++ old, resets := k }

section

variable (old : List (Response P)) (k : Nat)

@[simp] theorem Inst.withPast_job (g : Inst P) : (g.withPast old k).job = g.job := rfl
@[simp] theorem Inst.withPast_busy (g : Inst P) : (g.withPast old k).busy = g.busy := rfl

theorem Inst.sameCore_withPast (old' : List (Response P)) (k' : Nat) (g : Inst P) :
    (g.withPast old k).sameCore (g.withPast old' k') :=
  ⟨rfl, rfl, rfl, rfl, rfl, rfl⟩

theorem respond_withPast (g : Inst P) (st : Status) (x : Option (Word P.W)) :
    (g.withPast old k).respond st x = (g.respond st x).withPast old k := rfl

theorem extract_withPast (g : Inst P) :
    extract (g.withPast old k) = ((extract g).1, (extract g).2.withPast old k) := by
  obtain ⟨h, e⟩ | ⟨h, e⟩ := extract_cases g
  · rw [e]; simp [Inst.withPast, extract, h, extractAt]
  · rw [e]; simp [Inst.withPast, extract, Nat.not_lt.mpr h, extractAt, twist]

theorem extractBody_withPast (g : Inst P) :
    extractBody (g.withPast old k) = (extractBody g).withPast old k := by
  rw [extractBody, extract_withPast]; rfl

theorem sampleIter_withPast (ops : FloatOps) (g : Inst P) :
    sampleIter ops (g.withPast old k) = (sampleIter ops g).withPast old k := by
  rw [sampleIter, sampleIter, Inst.withPast_job]
  cases g.job with
  | none => rfl
  | some j =>
    simp only [extract_withPast]
    split <;> rfl

theorem runSample_withPast (ops : FloatOps) (fuel : Nat) (g : Inst P) :
    runSample ops fuel (g.withPast old k) = (runSample ops fuel g).withPast old k := by
  induction fuel generalizing g with
  | zero => rfl
  | succ fuel ih =>
    rw [runSample, runSample, Inst.withPast_busy, sampleIter_withPast, ih]
    split <;> rfl

theorem sample_withPast (ops : FloatOps) (n : Nat) (fin : Finish P) (g : Inst P) :
    sample ops n fin (g.withPast old k) = (sample ops n fin g).withPast old k :=
  runSample_withPast old k ops (loopBound P) { g with job := some ⟨n, fin⟩ }

/-- The fault of a command is chosen by the flag and the operands alone (R128). -/
theorem guarded_withPast {body : Inst P → Inst P}
    (h : ∀ g, body (g.withPast old k) = (body g).withPast old k) (legal : Bool) (g : Inst P) :
    guarded legal body (g.withPast old k) = (guarded legal body g).withPast old k := by
  have hfault : faultOf (g.withPast old k) legal = faultOf g legal := rfl
  rw [guarded, guarded, hfault]
  cases faultOf g legal with
  | some st => exact respond_withPast old k g st none
  | none => exact h g

end

/-- A command acts alike whatever the past is: it puts its response on top and reads nothing below. -/
theorem command_withPast (i : Instr) (old : List (Response i.variant.params)) (k : Nat)
    (g : Inst i.variant.params) : command i (g.withPast old k) = (command i g).withPast old k := by
  cases i with
  | seed v a b => rfl
  | extract v a b => exact guarded_withPast old k (extractBody_withPast old k) _ g
  | next v a b => exact guarded_withPast old k (sample_withPast old k _ _ _) _ g
  | nextf v a b => exact guarded_withPast old k (sample_withPast old k _ _ _) _ g
  | range v a b => exact guarded_withPast old k (sample_withPast old k _ _ _) _ g
  | rangef v a b => exact guarded_withPast old k (sample_withPast old k _ _ _) _ g
  | reserved000 v a b => rfl
  | reserved111 v a b => rfl

/-- A SEED leaves what it would leave of a generator just reset, with the past responses below (R73). -/
theorem seedCommand_eq_withPast (a : Word P.W) {g : Inst P} (h : g.job = none) :
    seedCommand a g = (seedCommand a (Inst.atReset P 0)).withPast g.responses g.resets := by
  have hfill : fill a g.words = fill a (Inst.atReset P 0).words := fill_congr a _ _
  simp [seedCommand, hfill, h, Inst.withPast, Inst.respond]

/-- Two runs of the same commands on generators that differ in their past alone leave such generators again. -/
theorem execAll_withPast (v : Variant) (old old' : List (Response v.params)) (k k' : Nat) (cmds : List Instr)
    (hv : ∀ i ∈ cmds, i.variant = v) (s s' : State) (g : Inst v.params)
    (h : s.inst v = g.withPast old k) (h' : s'.inst v = g.withPast old' k') :
    ∃ g₁ : Inst v.params, (execAll cmds s).inst v = g₁.withPast old k ∧
      (execAll cmds s').inst v = g₁.withPast old' k' := by
  induction cmds generalizing s s' g with
  | nil => exact ⟨g, h, h'⟩
  | cons i rest ih =>
    obtain ⟨rfl, hrest⟩ := List.forall_mem_cons.mp hv
    by_cases hidle : g.job = none
    · rw [execAll_cons_idle i rest s (by simpa [h] using hidle),
        execAll_cons_idle i rest s' (by simpa [h'] using hidle)]
      exact ih hrest _ _ (command i g) (by rw [State.inst_onInst, h, command_withPast])
        (by rw [State.inst_onInst, h', command_withPast])
    · have hbusy : g.job.isSome = true := Option.isSome_iff_ne_none.mpr hidle
      rw [execAll_cons_busy i rest s (by simpa [h] using hbusy),
        execAll_cons_busy i rest s' (by simpa [h'] using hbusy)]
      exact ⟨g, h, h'⟩

/-- A run that begins with a SEED goes on from the seeded generator (R70). -/
theorem execAll_seed_cons (v : Variant) (a b : Word v.W) (later : List Instr) (s : State)
    (h : (s.inst v).job = none) :
    execAll (.seed v a b :: later) s = execAll later (s.onInst v (seedCommand a)) :=
  execAll_cons_idle (.seed v a b) later s h

end Sys2Proof.Machine

namespace Sys2Proof.Seed

open Sys2Proof.Machine

/-- Settles O20: the array is Fill's, whose elements are the seed and then the recurrence. -/
theorem seedFillsTheArrayAndMarksItSeeded : Obligations.SeedFillsTheArrayAndMarksItSeeded := fun v a b s =>
  ⟨fill a (s.inst v).words, exec_seed v a b s, fill_getElem_zero a _, fill_getElem_succ a _⟩

/-- Settles O21: after a zero word Fill writes its index, which is not zero as a word. -/
theorem filledArrayHasNoTwoNeighbouringZeros : Obligations.FilledArrayHasNoTwoNeighbouringZeros := by
  rintro v a ws i h ⟨hi, hnext⟩
  rw [fill_getElem_succ, hi, fillNext_zero] at hnext
  exact word_ne_zero (Nat.succ_pos i) (h.trans (N_lt_two_pow_W v)) hnext

/-- Settles O22: the two SEEDs leave generators that differ in their past alone, and later commands keep it so. -/
theorem outputsDependOnTheSeedAndTheCommandsAlone :
    Obligations.OutputsDependOnTheSeedAndTheCommandsAlone := by
  intro v a b b' later s s' hv hidle hidle' t t'
  rw [phase_idle_iff] at hidle hidle'
  obtain ⟨g, e, e'⟩ : ∃ g : Inst v.params,
      t.inst v = g.withPast (s.inst v).responses (s.inst v).resets ∧
      t'.inst v = g.withPast (s'.inst v).responses (s'.inst v).resets := by
    simp only [t, t', execAll_seed_cons v a _ later _ hidle, execAll_seed_cons v a _ later _ hidle']
    exact execAll_withPast v _ _ _ _ later hv _ _ (seedCommand a (Inst.atReset v.params 0))
      (by rw [State.inst_onInst, seedCommand_eq_withPast a hidle])
      (by rw [State.inst_onInst, seedCommand_eq_withPast a hidle'])
  rw [e, e']
  exact ⟨Inst.sameCore_withPast _ _ _ _ g, g.responses, rfl, rfl⟩

end Sys2Proof.Seed

/-! PROOFS. The statements about TWIST (41_twist.md): its two-array form (R80) and its fixed point, the all-zero
array (R82). -/

namespace Sys2Proof.Machine

variable {P : Params}

/-! ### The word TwistStep writes (R76, R80) -/

/-- The conditional XOR with `A`, as an XOR that is always done, with `A` or with zero. -/
theorem twistMix_eq_xor (cur nxt far : Word P.W) :
    twistMix cur nxt far =
      far ^^^ (twistY cur nxt >>> 1) ^^^ (if (twistY cur nxt).getLsbD 0 then P.A else 0) := by
  rw [twistMix]
  by_cases hodd : (twistY cur nxt).getLsbD 0 <;> simp [hodd]

/-- TwistStep on any three words it reads, with `y` as an OR. -/
theorem twistMix_eq_or (cur nxt far : Word P.W) :
    twistMix cur nxt far =
      let y := (cur &&& P.highMask) ||| (nxt &&& P.lowMask)
      far ^^^ (y >>> 1) ^^^ (if y.getLsbD 0 then P.A else 0) := by
  rw [twistMix_eq_xor, twistY_eq_or]

/-! ### The all-zero array (R82) -/

/-- From three zero words `y` is even, so `A` is not mixed in. -/
theorem twistMix_zero : twistMix (0 : Word P.W) 0 0 = 0 := by
  simp [twistMix_eq_or]

theorem twistStep_zero (i : Fin P.N) :
    twistStep (Vector.replicate P.N (0 : Word P.W)) i = Vector.replicate P.N 0 := by
  ext1 j hj
  simp only [twistStep, Fin.getElem_fin, Vector.getElem_replicate, twistMix_zero, Vector.getElem_set, ite_self]

theorem twistUpTo_zero (k : Nat) (hk : k ≤ P.N) :
    twistUpTo (Vector.replicate P.N (0 : Word P.W)) k hk = Vector.replicate P.N 0 := by
  induction k with
  | zero => rfl
  | succ i ih => rw [twistUpTo, ih, twistStep_zero]

end Sys2Proof.Machine

namespace Sys2Proof.Twist

open Sys2Proof.Machine

/-- Settles O24: the new word is the mix of what iteration `i` reads in place (O23), and the mix is the OR form. -/
theorem twistEqualsItsTwoArrayForm : Obligations.TwistEqualsItsTwoArrayForm := by
  intro P old i new mix
  obtain ⟨hown, hnext, hlast, hfar, hwrapped⟩ := Memory.twistReadsTheArrayInPlace P old i
  have hM := P.M_pos
  have hnew : new[i] = mix old[i] (twistUpTo old i i.isLt.le)[nextAddr i]
      (twistUpTo old i i.isLt.le)[farAddr i] := by
    rw [← hown]
    exact (twistWords_getElem old i).trans (twistMix_eq_or _ _ _)
  refine ⟨fun h => ?ahead, fun hwrap h => ?wrapped, fun h => ?last⟩
  case ahead => rw [hnew, hnext (by omega), hfar h]
  case wrapped => rw [hnew, hnext h, hwrapped hwrap]
  case last =>
    have hidx : i.val + P.M - P.N = P.M - 1 := by omega
    simp only [hnew, hlast h, hwrapped (by omega), hidx, new]

/-- Settles O26: each iteration reads zeros and writes zero back. -/
theorem twistFixesTheZeroArray : Obligations.TwistFixesTheZeroArray := fun P =>
  twistUpTo_zero P.N (Nat.le_refl _)

end Sys2Proof.Twist

/-! PROOFS. The statements about EXTRACT (42_extract.md): the extraction as a command (R86 to R88), Temper's
algebra (R89) and the TWIST boundary (R91). -/

namespace Sys2Proof.Machine

variable {P : Params}

/-! ### EXTRACT on a seeded generator (R85 to R87) -/

/-- Once seeded, EXTRACT is one extraction and its response. -/
theorem command_extract_seeded (v : Variant) (a b : Word v.W) (g : Inst v.params) (hs : g.seeded = true) :
    command (.extract v a b) g = (extract g).2.respond .ok (some (extract g).1) :=
  guarded_legal extractBody g hs

theorem exec_extract_seeded (v : Variant) (a b : Word v.W) (s : State) (hs : (s.inst v).seeded = true) :
    exec (.extract v a b) s =
      .next (s.setInst v ((extract (s.inst v)).2.respond .ok (some (extract (s.inst v)).1))) := by
  rw [exec_eq, State.onInst, command_extract_seeded v a b _ hs]

/-! ### Temper's steps (R88, R89) -/

/-- A step of Temper that shifts right: the first, and the last with no bit masked out. -/
def temperRight {W : Nat} (shift : Nat) (mask y : Word W) : Word W := y ^^^ ((y >>> shift) &&& mask)

/-- A step of Temper that shifts left: the second and the third. -/
def temperLeft {W : Nat} (shift : Nat) (mask y : Word W) : Word W := y ^^^ ((y <<< shift) &&& mask)

theorem temper_eq_steps (y : Word P.W) :
    temper y = temperRight P.L (BitVec.allOnes P.W)
      (temperLeft P.T P.C (temperLeft P.S P.B (temperRight P.U P.D y))) := by
  rw [temperRight, BitVec.and_allOnes]
  rfl

/-- XOR-ing a masked word into another is linear in the two together. -/
theorem xor_and_mask_linear {W : Nat} (p q p' q' mask : Word W) :
    (p ^^^ q) ^^^ ((p' ^^^ q') &&& mask) = (p ^^^ (p' &&& mask)) ^^^ (q ^^^ (q' &&& mask)) := by
  have hdistrib : (p' ^^^ q') &&& mask = (p' &&& mask) ^^^ (q' &&& mask) := by
    ext i hi
    simp [Bool.and_xor_distrib_right]
  rw [hdistrib]
  ac_rfl

theorem temperRight_xor {W : Nat} (shift : Nat) (mask p q : Word W) :
    temperRight shift mask (p ^^^ q) = temperRight shift mask p ^^^ temperRight shift mask q := by
  rw [temperRight, BitVec.ushiftRight_xor_distrib, xor_and_mask_linear]
  rfl

theorem temperLeft_xor {W : Nat} (shift : Nat) (mask p q : Word W) :
    temperLeft shift mask (p ^^^ q) = temperLeft shift mask p ^^^ temperLeft shift mask q := by
  rw [temperLeft, BitVec.shiftLeft_xor_distrib, xor_and_mask_linear]
  rfl

theorem temper_xor (p q : Word P.W) : temper (p ^^^ q) = temper p ^^^ temper q := by
  simp only [temper_eq_steps, temperRight_xor, temperLeft_xor]

theorem temper_zero (P : Params) : temper (0 : Word P.W) = 0 := by
  simp [temper]

/-- A right step keeps a word other than 0 off 0: no such word is at most itself shifted right. -/
theorem eq_zero_of_temperRight {W shift : Nat} {mask y : Word W} (hpos : 0 < shift)
    (h : temperRight shift mask y = 0) : y = 0 := by
  have hfix : y = (y >>> shift) &&& mask := BitVec.xor_eq_zero_iff.mp h
  have hle : y.toNat ≤ y.toNat / 2 ^ shift := by
    calc y.toNat = (y.toNat >>> shift) &&& mask.toNat := congrArg BitVec.toNat hfix
      _ ≤ y.toNat >>> shift := Nat.and_le_left
      _ = y.toNat / 2 ^ shift := Nat.shiftRight_eq_div_pow _ _
  apply BitVec.eq_of_toNat_eq
  by_contra hne
  have hlt := Nat.div_lt_self (Nat.pos_of_ne_zero hne) (Nat.one_lt_two_pow hpos.ne')
  omega

/-- A left step keeps a word other than 0 off 0: each bit would repeat one below it, and below `shift` there is
none to repeat. -/
theorem eq_zero_of_temperLeft {W shift : Nat} {mask y : Word W} (hpos : 0 < shift)
    (h : temperLeft shift mask y = 0) : y = 0 := by
  have hfix : y = (y <<< shift) &&& mask := BitVec.xor_eq_zero_iff.mp h
  have hbit : ∀ i, y.getLsbD i = false := by
    intro i
    induction i using Nat.strong_induction_on with
    | _ i ih =>
      rw [hfix, BitVec.getLsbD_and, BitVec.getLsbD_shiftLeft]
      by_cases hi : i < shift
      · simp [hi]
      · simp [ih (i - shift) (by omega)]
  exact BitVec.eq_of_getLsbD_eq fun i _ => by simp [hbit]

/-- With shifts that move the word, Temper sends nothing but 0 to 0. -/
theorem eq_zero_of_temper {y : Word P.W} (hU : 0 < P.U) (hS : 0 < P.S) (hT : 0 < P.T) (hL : 0 < P.L)
    (h : temper y = 0) : y = 0 := by
  rw [temper_eq_steps] at h
  exact eq_zero_of_temperRight hU <| eq_zero_of_temperLeft hS <| eq_zero_of_temperLeft hT <|
    eq_zero_of_temperRight hL h

/-- A linear map with no other zero than 0 is one-to-one. -/
theorem temper_injective (hU : 0 < P.U) (hS : 0 < P.S) (hT : 0 < P.T) (hL : 0 < P.L) :
    Function.Injective (temper (P := P)) := by
  intro p q h
  have hzero : temper (p ^^^ q) = 0 := by
    rw [temper_xor]
    exact BitVec.xor_eq_zero_iff.mpr h
  exact BitVec.xor_eq_zero_iff.mp (eq_zero_of_temper hU hS hT hL hzero)

/-! ### The TWIST boundary (R91) -/

/-- On an idle, seeded generator `k` EXTRACTs make `k` extractions. -/
theorem execAll_replicate_extract (v : Variant) (c d : Word v.W) (k : Nat) (s : State)
    (hs : (s.inst v).seeded = true) (hidle : (s.inst v).job = none) :
    ((execAll (List.replicate k (.extract v c d)) s).inst v).seeded = true ∧
      ((execAll (List.replicate k (.extract v c d)) s).inst v).extracts = (s.inst v).extracts + k := by
  induction k generalizing s with
  | zero => exact ⟨hs, rfl⟩
  | succ k ih =>
    have hnext : (s.onInst v (command (.extract v c d))).inst v =
        (extract (s.inst v)).2.respond .ok (some (extract (s.inst v)).1) := by
      rw [State.inst_onInst, command_extract_seeded v c d _ hs]
    obtain ⟨hseeded, hcount⟩ := ih (s.onInst v (command (.extract v c d)))
      (by simpa [hnext] using hs) (by simpa [hnext] using hidle)
    rw [List.replicate_succ, execAll_cons_idle (.extract v c d) _ s hidle]
    refine ⟨hseeded, hcount.trans ?_⟩
    rw [hnext, Inst.respond_extracts, extract_extracts]
    omega

/-- SEED clears the count, so after it and `k` EXTRACTs the count is `k` (R31). -/
theorem execAll_seed_extracts (v : Variant) (a b c d : Word v.W) (k : Nat) (s : State)
    (hidle : (s.inst v).job = none) :
    ((execAll (.seed v a b :: List.replicate k (.extract v c d)) s).inst v).seeded = true ∧
      ((execAll (.seed v a b :: List.replicate k (.extract v c d)) s).inst v).extracts = k := by
  rw [execAll_seed_cons v a b _ s hidle]
  simpa using execAll_replicate_extract v c d k (s.onInst v (seedCommand a)) (by simp) (by simpa using hidle)

/-- Every run keeps the invariant. -/
theorem execAll_inv (cmds : List Instr) (s : State) (h : s.Inv) : (execAll cmds s).Inv := by
  induction cmds generalizing s with
  | nil => exact h
  | cons i rest ih =>
    cases hj : (s.inst i.variant).job with
    | none =>
      rw [execAll_cons_idle i rest s hj]
      exact ih _ (h.onInst (command_inv i))
    | some j =>
      rw [execAll_cons_busy i rest s (by rw [hj]; rfl)]
      exact h

/-- The closed form of the invariant's counters once something is extracted: the cursor is then in `1 .. N`. -/
theorem Inst.Inv.twists_and_index {g : Inst P} (h : g.Inv) (hs : g.seeded = true) (hpos : 0 < g.extracts) :
    g.twists = (g.extracts + P.N - 1) / P.N ∧ g.index.toNat = g.extracts - P.N * (g.twists - 1) := by
  have hle := h.cursor hs
  have hindex := h.drawnFrom hs hpos
  have hcount := h.counters hs
  have hquot : g.extracts + P.N - 1 = g.index.toNat - 1 + P.N * g.twists := by omega
  refine ⟨?_, ?_⟩
  · rw [hquot, Nat.add_mul_div_left _ _ P.N_pos, Nat.div_eq_of_lt (by omega), Nat.zero_add]
  · cases ht : g.twists with
    | zero => rw [ht] at hcount; omega
    | succ t =>
      rw [ht, Nat.mul_succ] at hcount
      rw [Nat.add_sub_cancel]
      omega

end Sys2Proof.Machine

namespace Sys2Proof.Extract

open Sys2Proof.Machine

/-- Settles O27: EXTRACT is one extraction and its response, and the cursor says which of the two extractions. -/
theorem extractReturnsTheTemperedWordAtTheCursor :
    Obligations.ExtractReturnsTheTemperedWordAtTheCursor := by
  intro v a b s hs P g tempered
  rw [exec_extract_seeded v a b s hs]
  obtain ⟨hlt, e⟩ | ⟨hge, e⟩ := extract_cases (s.inst v)
  · refine ⟨fun _ => ?_, fun hge => absurd hlt (Nat.not_lt.mpr hge)⟩
    rw [e]
    rfl
  · refine ⟨fun hlt => absurd hlt (Nat.not_lt.mpr hge), fun _ => ?_⟩
    rw [e, zero_add]
    rfl

/-- Settles O28: each of the four steps is linear, so their composition is. -/
theorem temperIsLinear : Obligations.TemperIsLinear := fun P p q =>
  ⟨temper_zero P, temper_xor p q⟩

/-- Settles O29: Temper is linear and, as both variants shift by at least 1 in each step, sends only 0 to 0. -/
theorem temperIsOneToOne : Obligations.TemperIsOneToOne := by
  intro v p q h
  cases v <;> exact temper_injective (by decide) (by decide) (by decide) (by decide) h

/-- Settles O30: by O22 the run may as well start from reset, where the invariant holds; for `k = 0` the fields are
SEED's own, and for `k >= 1` the invariant's counters give the closed form. -/
theorem twistRunsExactlyAtTheBoundary : Obligations.TwistRunsExactlyAtTheBoundary := by
  intro v a b c d k s hidle N g
  have hjob := (phase_idle_iff _).mp hidle
  obtain ⟨hseeded, hk⟩ : g.seeded = true ∧ g.extracts = k := execAll_seed_extracts v a b c d k s hjob
  refine ⟨hk, ?_⟩
  cases k with
  | zero =>
    have hg : g = seedCommand a (s.inst v) := by
      simp only [g, List.replicate_zero, execAll_seed_cons v a b [] s hjob, execAll_nil, State.inst_onInst]
    have hquot : (0 + N - 1) / N = 0 := Nat.div_eq_of_lt (by have := v.params.N_pos; omega)
    rw [hg, hquot, seedCommand_index, toNat_index_N]
    exact ⟨rfl, fun _ => rfl, nofun⟩
  | succ k =>
    obtain ⟨⟨-, hindex, hflag, -, htwists, hextracts⟩, -⟩ :=
      Seed.outputsDependOnTheSeedAndTheCommandsAlone v a b b (List.replicate (k + 1) (.extract v c d)) s
        State.reset (fun i hi => by rw [List.eq_of_mem_replicate hi]) hidle (by rw [State.inst_reset]; rfl)
    have hinv := execAll_inv (.seed v a b :: List.replicate (k + 1) (.extract v c d)) State.reset
      StateRules.resetMeetsTheInvariant v
    obtain ⟨ht, hi⟩ := hinv.twists_and_index (hflag ▸ hseeded)
      (Nat.lt_of_lt_of_eq (Nat.succ_pos k) (hk.symm.trans hextracts))
    rw [← htwists, ← hextracts, hk] at ht hi
    rw [← hindex] at hi
    exact ⟨ht, nofun, fun _ => hi⟩

end Sys2Proof.Extract

/-! PROOFS. The statements about NEXT (43_sample.md): the legal divisors (R95), the bound LIMIT and its corner cases
(R96, R100 to R102), the rejection loop and its iterations (R98, R101, R103), and the result (R99). -/

namespace Sys2Proof.Machine

variable {P : Params}

/-! ### The bound LIMIT (R96, R100, R102) -/

theorem limit_eq_mul_div (P : Params) (n : Nat) : limit P n = n * (P.MAX / n) :=
  Nat.sub_eq_of_eq_add (Nat.div_add_mod P.MAX n).symm

theorem dvd_limit (P : Params) (n : Nat) : n ∣ limit P n := ⟨_, limit_eq_mul_div P n⟩

theorem limit_le_MAX (P : Params) (n : Nat) : limit P n ≤ P.MAX := Nat.sub_le _ _

theorem MAX_lt_limit_add (P : Params) {n : Nat} (hn : 1 ≤ n) : P.MAX < limit P n + n := by
  have hmod := Nat.mod_lt P.MAX hn
  unfold limit
  omega

theorem le_limit_of_dvd {n m : Nat} (hn : 1 ≤ n) (hdvd : n ∣ m) (hm : m ≤ P.MAX) : m ≤ limit P n := by
  obtain ⟨c, rfl⟩ := hdvd
  rw [limit_eq_mul_div]
  exact Nat.mul_le_mul_left n ((Nat.le_div_iff_mul_le hn).mpr (by rwa [Nat.mul_comm]))

/-- The one multiple of `n` in `MAX-n+1 .. MAX` is LIMIT. -/
theorem limit_eq_of_dvd {n m : Nat} (hdvd : n ∣ m) (hm : m ≤ P.MAX) (hlt : P.MAX < m + n) :
    limit P n = m := by
  obtain ⟨c, rfl⟩ := hdvd
  rw [limit_eq_mul_div, Nat.div_eq_of_lt_le (by rwa [Nat.mul_comm]) (by rwa [Nat.succ_mul, Nat.mul_comm])]

/-- Below a multiple of `n` every remainder class holds the same number of values. -/
theorem length_filter_mod_eq {L n r : Nat} (hdvd : n ∣ L) (hr : r < n) :
    ((List.range L).filter (fun x => x % n = r)).length = L / n := by
  calc ((List.range L).filter (fun x => x % n = r)).length
      = L.count (· ≡ r [MOD n]) := by
        simp only [Nat.count, List.countP_eq_length_filter, Nat.ModEq, Nat.mod_eq_of_lt hr]
    _ = L / n + if r % n < L % n then 1 else 0 := Nat.count_modEq_card L (Nat.zero_lt_of_lt hr) r
    _ = L / n := by simp [Nat.mod_eq_zero_of_dvd hdvd]

/-! ### The iterations of the rejection loop (R98, R103) -/

/-- The iterations before the first accepted draw only extract. -/
theorem iterate_sampleIter_of_rejected (ops : FloatOps) {g : Inst P} {j : Job P} (hj : g.job = some j) {m : Nat}
    (h : ∀ k < m, limit P j.n ≤ drawn g k) : (sampleIter ops)^[m] g = afterExtracts m g := by
  induction m with
  | zero => rfl
  | succ m ih =>
    rw [Function.iterate_succ_apply', ih fun k hk => h k (Nat.lt_succ_of_lt hk)]
    refine sampleIter_reject ops _ j (by simpa using hj) ?_
    rw [drawn_afterExtracts, Nat.zero_add]
    exact h m (Nat.lt_succ_self m)

/-- Before the first accepted draw is met the loop stays in SAMPLING. -/
theorem iterate_sampleIter_phase (ops : FloatOps) {g : Inst P} {j : Job P} (hj : g.job = some j) {m : Nat}
    (h : ∀ k < m, limit P j.n ≤ drawn g k) : ((sampleIter ops)^[m] g).phase = .sampling := by
  rw [iterate_sampleIter_of_rejected ops hj h, Inst.phase, afterExtracts_job, hj]

/-- The iteration that meets the first accepted draw ends the loop. -/
theorem iterate_sampleIter_firstAccepted (ops : FloatOps) {g : Inst P} {j : Job P} (hj : g.job = some j)
    {k : Nat} (h : FirstAccepted g j.n k) :
    (sampleIter ops)^[k + 1] g = afterSample g k (j.finish.result ops (drawn g k % j.n)) := by
  obtain ⟨haccept, hreject⟩ := h
  have hdrawn : drawn (afterExtracts k g) 0 = drawn g k := by rw [drawn_afterExtracts, Nat.zero_add]
  rw [Function.iterate_succ_apply', iterate_sampleIter_of_rejected ops hj hreject,
    sampleIter_accept ops _ j (by simpa using hj) (by rwa [hdrawn]), hdrawn]
  rfl

/-- The loop in progress does not touch the stream, so it accepts the same draw. -/
theorem firstAccepted_withJob {g : Inst P} {n k : Nat} (job : Option (Job P)) (h : FirstAccepted g n k) :
    FirstAccepted { g with job := job } n k := by
  simpa [FirstAccepted] using h

theorem afterSample_withJob (g : Inst P) (job : Option (Job P)) (k : Nat) (x : Word P.W) :
    afterSample { g with job := job } k x = afterSample g k x := by
  rw [afterSample, afterExtracts_withJob, afterSample]

/-- A sampling command is one iteration for each draw up to the first accepted one (R103). -/
theorem sample_eq_iterate (ops : FloatOps) {n : Nat} (fin : Finish P) {g : Inst P} {k : Nat}
    (h : FirstAccepted g n k) :
    sample ops n fin g = (sampleIter ops)^[k + 1] { g with job := some ⟨n, fin⟩ } := by
  rw [sample_firstAccepted ops n fin g k h,
    iterate_sampleIter_firstAccepted ops rfl (firstAccepted_withJob (some ⟨n, fin⟩) h),
    afterSample_withJob g (some ⟨n, fin⟩), drawn_withJob g (some ⟨n, fin⟩)]

/-! ### The response of a sampling command (R98, R99) -/

/-- A sampling loop that is over has answered OK with a result. -/
theorem sample_responses_of_idle (ops : FloatOps) (n : Nat) (fin : Finish P) (g : Inst P)
    (h : (sample ops n fin g).phase = .idle) :
    ∃ x, (sample ops n fin g).responses = ⟨.ok, some x⟩ :: g.responses := by
  obtain ⟨k, hk⟩ := (sample_phase_idle_iff ops n fin g).mp h
  obtain ⟨k, hk⟩ := exists_firstAccepted g n k hk
  refine ⟨fin.result ops (drawn g k % n), ?_⟩
  rw [sample_firstAccepted ops n fin g k hk, afterSample, Inst.respond_responses, afterExtracts_responses]

/-- Where an OK response with a result comes from: legal operands and the first accepted draw. -/
theorem guarded_sample_result {legal : Bool} {ops : FloatOps} {n : Nat} {fin : Finish P} {g : Inst P}
    {x : Word P.W} (h : (guarded legal (sample ops n fin) g).responses = ⟨.ok, some x⟩ :: g.responses) :
    legal = true ∧ ∃ k, FirstAccepted g n k ∧ x = fin.result ops (drawn g k % n) := by
  obtain ⟨-, e⟩ | ⟨-, -, e⟩ | ⟨-, hlegal, e⟩ := guarded_cases legal (sample ops n fin) g
  case inl | inr.inl => simp [e] at h -- a fault has no result
  refine ⟨hlegal, ?_⟩
  rw [e] at h
  obtain ⟨k, hk, e⟩ | ⟨-, e⟩ := sample_cases ops n fin g
  · exact ⟨k, hk, by simpa [e, afterSample, eq_comm] using h⟩
  · simp [e] at h -- still in SAMPLING: no response

/-! ### Words up to MAX (R5, R99) -/

theorem toNat_word_of_le_MAX {r : Nat} (h : r ≤ P.MAX) : (word P.W r).toNat = r := by
  have hW := two_pow_W P
  have hmax := MAX_succ P
  exact Nat.mod_eq_of_lt (by omega)

theorem msb_eq_false_of_le_MAX {x : Word P.W} (h : x.toNat ≤ P.MAX) : x.msb = false := by
  have hW := two_pow_W P
  have hmax := MAX_succ P
  exact BitVec.msb_eq_false_iff_two_mul_lt.mpr (by omega)

/-- On a seeded generator NEXT refuses a divisor that is not positive in the signed view (R95, R125). -/
theorem exec_next_illegal (v : Variant) (a b : Word v.W) (s : State) (hs : (s.inst v).seeded = true)
    (ha : a.toInt ≤ 0) :
    exec (.next v a b) s = .next (s.setInst v ((s.inst v).respond .invalidArgument none)) := by
  have hillegal : legalDivisor (P := v.params) a = false := decide_eq_false (Int.not_lt.mpr ha)
  rw [exec_next, hillegal, guarded_illegal _ _ hs]

end Sys2Proof.Machine

namespace Sys2Proof.Sample

open Sys2Proof.Machine

/-- Settles O15: the legality test as bounds is `legalDivisor_iff`; a divisor that fails it is refused. -/
theorem nextRefusesIllegalDivisors : Obligations.NextRefusesIllegalDivisors := fun v a b s =>
  ⟨decide_eq_true_iff.symm.trans (legalDivisor_iff a), exec_next_illegal v a b s⟩

/-- Settles O31: once seeded, NEXT is its sampling loop, which ends at the first accepted draw. -/
theorem nextReturnsTheFirstAcceptedDraw : Obligations.NextReturnsTheFirstAcceptedDraw := by
  intro v a b s k hs h1 h2 hk
  rw [exec_next_legal v a b s hs h1 h2, sample_firstAccepted floatOps a.toNat .next _ k hk]
  rfl

/-- Settles O33: each iteration up to the first accepted draw is a rejection, and the next one ends the loop. -/
theorem nextIsTheClosureOfItsIterations : Obligations.NextIsTheClosureOfItsIterations := by
  intro v a b s k hs h1 h2 hk start
  obtain ⟨-, hreject⟩ := firstAccepted_withJob (some ⟨a.toNat, .next⟩) hk
  refine ⟨fun j hj => iterate_sampleIter_phase (j := ⟨a.toNat, .next⟩) _ rfl fun i hi =>
    hreject i (by omega), ?_⟩
  rw [exec_next_legal v a b s hs h1 h2, sample_eq_iterate floatOps .next hk]
  rfl

/-- Settles O34: the result is the accepted draw modulo a legal divisor, so it is below `MAX` and a word holds it. -/
theorem nextResultIsBelowTheDivisor : Obligations.NextResultIsBelowTheDivisor := by
  intro v a b x s t h hresult
  rw [exec_next] at h
  cases h
  rw [State.inst_setInst] at hresult
  obtain ⟨hlegal, k, hk, rfl⟩ := guarded_sample_result hresult
  obtain ⟨h1, h2⟩ := (legalDivisor_iff a).mp hlegal
  have hlt : drawn (s.inst v) k % a.toNat < a.toNat := Nat.mod_lt _ h1
  have hx : (word v.params.W (drawn (s.inst v) k % a.toNat)).toNat = drawn (s.inst v) k % a.toNat :=
    toNat_word_of_le_MAX (hlt.le.trans h2)
  have hdrawn : drawn (s.inst v) k ≤ v.params.MAX := hk.1.le.trans (limit_le_MAX _ _)
  exact ⟨hx.trans_lt hlt, msb_eq_false_of_le_MAX (hx.trans_le (hlt.le.trans h2)), k, hk, hdrawn, hx⟩

/-- Settles O35: LIMIT is a multiple of `n` at most `MAX`, and less than `n` below it. -/
theorem limitIsTheLargestMultiple : Obligations.LimitIsTheLargestMultiple := by
  intro P n h1 h2
  have hlt := MAX_lt_limit_add P h1
  exact ⟨limit_eq_mul_div P n, le_limit_of_dvd h1 (Nat.dvd_refl n) h2, limit_le_MAX P n, by omega,
    fun m => le_limit_of_dvd h1⟩

/-- Settles O36: LIMIT is at least `n` and above `MAX - n`, so it is at least half of `MAX + 1`, a quarter of the
words; and it is at most `MAX`. -/
theorem acceptedFractionIsBetweenQuarterAndHalf : Obligations.AcceptedFractionIsBetweenQuarterAndHalf := by
  intro P n h1 h2
  have hn : n ≤ limit P n := le_limit_of_dvd h1 (Nat.dvd_refl n) h2
  have hlt := MAX_lt_limit_add P h1
  have hle := limit_le_MAX P n
  have hmax := MAX_succ P
  rw [two_pow_W]
  omega

/-- Settles O37: LIMIT is a multiple of `n`. -/
theorem acceptedValuesAreUnbiased : Obligations.AcceptedValuesAreUnbiased := fun P n _ _ _ hr =>
  length_filter_mod_eq (dvd_limit P n) hr

/-- Settles O38: in each case the value given is a multiple of the divisor in `MAX-n+1 .. MAX`. -/
theorem limitInTheCornerCases : Obligations.LimitInTheCornerCases := by
  intro P
  have hmax := MAX_succ P
  have hW := P.W_ge
  refine ⟨fun k hk => ?power, fun n hlo hhi => ?large⟩
  case power =>
    have hpos := Nat.two_pow_pos k
    have hle : 2 ^ k ≤ 2 ^ (P.W - 1) := Nat.pow_le_pow_right Nat.two_pos (by omega)
    exact limit_eq_of_dvd (Nat.dvd_sub (Nat.pow_dvd_pow 2 (by omega)) (Nat.dvd_refl _)) (by omega) (by omega)
  case large =>
    have hhalf : 2 ^ (P.W - 1) = 2 * 2 ^ (P.W - 2) := by
      rw [show P.W - 1 = P.W - 2 + 1 by omega, Nat.pow_succ']
    exact limit_eq_of_dvd (Nat.dvd_refl n) hhi.le (by omega)

/-- Settles O57: a stream with an accepted word ends the loop at the first one, and one without adds nothing. -/
theorem samplingLoopEndsExactlyWhenAWordIsAccepted :
    Obligations.SamplingLoopEndsExactlyWhenAWordIsAccepted := fun _ ops n fin g =>
  ⟨sample_phase_idle_iff ops n fin g, sample_responses_of_idle ops n fin g,
    sample_responses_of_not_idle ops n fin g⟩

end Sys2Proof.Sample

/-! PROOFS. The statements about NEXTF, RANGE and RANGEF (44_derived.md): the legal bounds (R109, R114), the results
(R105, R108, R110, R112, R115, R116), how many extractions they consume (R111, R116), and the binary32 patterns and
operations behind them (R106, R107, R113). -/

namespace Sys2Proof.Machine.Binary32

/-! ### A pattern's value from its sign and its 31 bits -/

/-- The number with a given sign and magnitude. -/
def signed (s : Bool) (n : Nat) : Int := if s then -(n : Int) else (n : Int)

@[simp] theorem signed_true (n : Nat) : signed true n = -(n : Int) := by simp [signed]
@[simp] theorem signed_false (n : Nat) : signed false n = (n : Int) := by simp [signed]

theorem signed_natAbs (t : Int) : signed (decide (t < 0)) t.natAbs = t := by
  by_cases h : t < 0
  · rw [decide_eq_true h, signed_true]; omega
  · rw [decide_eq_false h, signed_false]; omega

/-- The magnitude that 31 bits below the sign stand for, in units of `2^-149`. -/
def magnitudeOf (b : Nat) : Nat := sig b * 2 ^ scale b

theorem magnitudeOf_strictMono : StrictMono magnitudeOf := fun _ _ => magnitude_lt_of_bits

theorem magnitudeOf_mono : Monotone magnitudeOf := magnitudeOf_strictMono.monotone

@[simp] theorem magnitudeOf_zero : magnitudeOf 0 = 0 := rfl

theorem value_eq (x : Bits32) : value x = signed (sign x) (magnitudeOf (low31 x)) := by
  rw [value, magnitude_eq]; rfl

theorem orderKey_eq (x : Bits32) : orderKey x = signed (sign x) (low31 x) := by
  simp [orderKey, signed, low31]

theorem value_withSign (s : Bool) {b : Nat} (h : b < 2 ^ 31) : value (withSign s b) = signed s (magnitudeOf b) := by
  rw [value_eq, sign_withSign s b h, low31_withSign s b h]

theorem value_neg (x : Bits32) : value (neg x) = -value x := by
  rw [value_eq, value_eq, sign_neg, low31_neg]
  cases sign x <;> simp

theorem isNaN_eq_false_of_finite {x : Bits32} (h : finite x = true) : isNaN x = false := by
  rw [finite_iff] at h
  rw [← Bool.not_eq_true, isNaN_iff]
  omega

/-- A strictly increasing map of magnitudes that fixes 0 keeps the order of signed numbers: of two numbers with
opposite signs only zeros are not in order. -/
theorem signed_lt_signed_iff {f : Nat → Nat} (hf : StrictMono f) (h0 : f 0 = 0) (s t : Bool) (m n : Nat) :
    signed s (f m) < signed t (f n) ↔ signed s m < signed t n := by
  have hm : 0 < f m ↔ 0 < m := by simpa only [h0] using hf.lt_iff_lt (a := 0) (b := m)
  have hn : 0 < f n ↔ 0 < n := by simpa only [h0] using hf.lt_iff_lt (a := 0) (b := n)
  cases s <;> cases t <;> simp only [signed_true, signed_false]
  · exact_mod_cast hf.lt_iff_lt
  · omega
  · omega
  · simpa using hf.lt_iff_lt

/-- On finite patterns the IEEE ordering is that of the values (R114). -/
theorem less_iff_value_lt {x y : Bits32} (hx : finite x = true) (hy : finite y = true) :
    less x y = true ↔ value x < value y := by
  rw [value_eq, value_eq, signed_lt_signed_iff magnitudeOf_strictMono magnitudeOf_zero, ← orderKey_eq,
    ← orderKey_eq]
  simp [less, isNaN_eq_false_of_finite hx, isNaN_eq_false_of_finite hy]

/-! ### One rounding (R113) -/

theorem roundBits_lt (m unit : Nat) : roundBits m unit < 2 ^ 31 :=
  (roundBits_le_inf m unit).trans_lt (by decide)

/-- The 31 bits of the significand `s` at the scale `k`; with `s = 2^24` the carry goes into the exponent field. -/
theorem magnitudeOf_scale_add {k s : Nat} (hfull : k = 0 ∨ 2 ^ 23 ≤ s) (hs : s ≤ 2 ^ 24) :
    magnitudeOf (k * 2 ^ 23 + s) = s * 2 ^ k := by
  rcases Nat.lt_or_eq_of_le hs with hlt | rfl
  · have hscale : scale (k * 2 ^ 23 + s) = k := by unfold scale; omega
    rw [magnitudeOf, sig, hscale, Nat.add_sub_cancel_left]
  · have hscale : scale (k * 2 ^ 23 + 2 ^ 24) = k + 1 := by unfold scale; omega
    have hsig : sig (k * 2 ^ 23 + 2 ^ 24) = 2 ^ 23 := by rw [sig, hscale]; omega
    rw [magnitudeOf, hscale, hsig, ← Nat.pow_add, ← Nat.pow_add]
    congr 1; omega

/-- Rounding goes down in the lower half of an interval and up in the upper half. -/
theorem roundShift_cases (m k : Nat) :
    (roundShift m k = m / 2 ^ k ∧ 2 * (m % 2 ^ k) ≤ 2 ^ k) ∨
    (roundShift m k = m / 2 ^ k + 1 ∧ 2 ^ k ≤ 2 * (m % 2 ^ k)) := by
  unfold roundShift; dsimp only
  split
  · exact .inr ⟨rfl, by omega⟩
  · exact .inl ⟨rfl, by omega⟩

/-- What rounding keeps of a magnitude fits the significand, -/
theorem div_dropped_lt (m unit : Nat) : m / 2 ^ dropped m unit < 2 ^ 24 := by
  rw [Nat.div_lt_iff_lt_mul (Nat.two_pow_pos _), ← Nat.pow_add]
  exact lt_dropped m unit

/-- and fills it where more bits go than the scale of `2^-149` asks for. -/
theorem le_div_dropped (m unit : Nat) (h : unit - 149 < dropped m unit) : 2 ^ 23 ≤ m / 2 ^ dropped m unit := by
  rw [Nat.le_div_iff_mul_le (Nat.two_pow_pos _), ← Nat.pow_add]
  exact dropped_full m unit h

/-- Where it does not overflow, rounding gives the 31 bits nearest to the exact magnitude: the magnitude lies between
two neighbouring patterns, every other one lies beyond these two, and the rounding takes the nearer. -/
theorem roundBits_nearest {m : Nat} (h : roundBits m 149 < infBits) (c : Nat) :
    |(m : Int) - magnitudeOf (roundBits m 149)| ≤ |(m : Int) - magnitudeOf c| := by
  set k := dropped m 149 with hk
  set q := m / 2 ^ k with hq
  have hbits : roundBits m 149 = min (k * 2 ^ 23 + roundShift m k) infBits := rfl
  have hround : roundBits m 149 = k * 2 ^ 23 + roundShift m k := by omega
  have hpos := Nat.two_pow_pos k
  have hlt : q < 2 ^ 24 := div_dropped_lt m 149
  have hfull : k = 0 ∨ 2 ^ 23 ≤ q := (Nat.eq_zero_or_pos k).imp_right (le_div_dropped m 149)
  have hlo : magnitudeOf (k * 2 ^ 23 + q) = q * 2 ^ k := magnitudeOf_scale_add hfull hlt.le
  have hhi : magnitudeOf (k * 2 ^ 23 + (q + 1)) = q * 2 ^ k + 2 ^ k := by
    rw [magnitudeOf_scale_add (by omega) hlt, Nat.succ_mul]
  have hm : q * 2 ^ k + m % 2 ^ k = m := by rw [Nat.mul_comm]; exact Nat.div_add_mod m (2 ^ k)
  have hmod := Nat.mod_lt m hpos
  have hc : magnitudeOf c ≤ q * 2 ^ k ∨ q * 2 ^ k + 2 ^ k ≤ magnitudeOf c := by
    rw [← hhi, ← hlo]
    exact (Nat.lt_or_ge c (k * 2 ^ 23 + (q + 1))).imp (fun hlt => magnitudeOf_mono (by omega))
      fun hge => magnitudeOf_mono hge
  rw [hround]
  obtain ⟨e, hhalf⟩ | ⟨e, hhalf⟩ := roundShift_cases m k
  · rw [e, ← hq, hlo, le_abs, abs_le, abs_le]
    omega
  · rw [e, ← hq, hhi, le_abs, abs_le, abs_le]
    omega

/-! ### Sums, differences and products of finite patterns (R113) -/

/-- The exact sum of finite patterns as a sign and a magnitude: the sum is that magnitude, rounded once, with that sign
(for a zero sum either sign will do). -/
theorem add_eq_withSign {x y : Bits32} (hx : finite x = true) (hy : finite y = true) :
    ∃ s m, value x + value y = signed s m ∧ add x y = withSign s (roundBits m 149) := by
  by_cases h0 : value x + value y = 0
  · have hzero : roundBits 0 149 = 0 := roundBits_exact 149 0 (Nat.zero_le _)
    exact ⟨sign x && sign y, 0, by simp [h0, signed], by simp [add, hx, hy, h0, hzero]⟩
  · exact ⟨decide (value x + value y < 0), (value x + value y).natAbs, (signed_natAbs _).symm,
      by simp [add, hx, hy, h0]⟩

theorem sub_eq_add_neg {x : Bits32} (y : Bits32) (hx : finite x = true) : sub y x = add y (neg x) := by
  simp [sub, isNaN_eq_false_of_finite hx]

theorem finite_neg {x : Bits32} (hx : finite x = true) : finite (neg x) = true := by
  rwa [finite_iff, low31_neg, ← finite_iff]

/-- The difference of two patterns in strict order is positive. -/
theorem sign_sub_of_less {x y : Bits32} (hx : finite x = true) (hy : finite y = true) (h : less x y = true) :
    sign (sub y x) = false := by
  rw [less_iff_value_lt hx hy] at h
  obtain ⟨s, m, hs, e⟩ := add_eq_withSign hy (finite_neg hx)
  rw [sub_eq_add_neg y hx, e, sign_withSign _ _ (roundBits_lt _ _)]
  rw [value_neg] at hs
  cases s with
  | false => rfl
  | true => rw [signed_true] at hs; omega

theorem mul_eq_withSign {x y : Bits32} (hx : finite x = true) (hy : finite y = true) :
    mul x y = withSign (sign x != sign y) (roundBits (magnitudeOf (low31 x) * magnitudeOf (low31 y)) 298) := by
  rw [mul, magnitude_eq, magnitude_eq]; simp [hx, hy, magnitudeOf]

/-- A factor of magnitude at most 1.0 does not raise a magnitude: the product stays finite. -/
theorem low31_mul_le {x y : Bits32} (hx : finite x = true) (hy : finite y = true)
    (h1 : magnitudeOf (low31 x) ≤ 2 ^ 149) : low31 (mul x y) ≤ low31 y := by
  rw [mul_eq_withSign hx hy, low31_withSign _ _ (roundBits_lt _ _)]
  refine roundBits_le _ _ _ ?_
  rw [Nat.pow_add, ← Nat.mul_assoc, Nat.mul_comm]
  exact Nat.mul_le_mul_left _ h1

/-- A finite pattern that is not above the exact sum is not above the rounded sum. -/
theorem le_value_add {x y z : Bits32} (hx : finite x = true) (hy : finite y = true) (hz : finite z = true)
    (h : value z ≤ value x + value y) : value z ≤ value (add x y) := by
  obtain ⟨s, m, hs, e⟩ := add_eq_withSign hx hy
  rw [finite_iff] at hz
  rw [e, value_withSign s (roundBits_lt _ _)]
  have hbelow (hm : magnitudeOf (low31 z) ≤ m) : magnitudeOf (low31 z) ≤ magnitudeOf (roundBits m 149) :=
    magnitudeOf_mono (le_roundBits m 149 _ hz.le hm)
  have habove (hm : m ≤ magnitudeOf (low31 z)) : magnitudeOf (roundBits m 149) ≤ magnitudeOf (low31 z) :=
    magnitudeOf_mono (roundBits_le m 149 _ hm)
  -- for each pair of signs one of the two bounds decides
  rw [hs] at h
  rw [value_eq z] at h ⊢
  generalize sign z = t at h ⊢
  cases s <;> cases t <;> simp only [signed_true, signed_false] at h ⊢ <;> omega

theorem isNaN_add_of_finite {x y : Bits32} (hx : finite x = true) (hy : finite y = true) :
    isNaN (add x y) = false := by
  obtain ⟨s, m, -, e⟩ := add_eq_withSign hx hy
  rw [e, ← Bool.not_eq_true, isNaN_iff, low31_withSign _ _ (roundBits_lt _ _)]
  exact Nat.not_lt.mpr (roundBits_le_inf _ _)

/-- A finite sum is a nearest pattern to the exact sum. -/
theorem value_add_nearest {x y : Bits32} (hx : finite x = true) (hy : finite y = true)
    (hsum : finite (add x y) = true) (z : Bits32) :
    |value x + value y - value (add x y)| ≤ |value x + value y - value z| := by
  obtain ⟨s, m, hs, e⟩ := add_eq_withSign hx hy
  rw [finite_iff, e, low31_withSign _ _ (roundBits_lt _ _)] at hsum
  rw [e, value_withSign s (roundBits_lt _ _), value_eq z, hs]
  have hz := roundBits_nearest hsum (low31 z)
  have hzero := roundBits_nearest hsum 0
  rw [magnitudeOf_zero, le_abs, abs_le, abs_le] at hzero
  -- of the sum's sign, `z` is compared by magnitude; of the other sign it is farther off than zero
  rw [le_abs, abs_le, abs_le] at hz ⊢
  cases s <;> cases sign z <;> simp only [signed_true, signed_false] <;> omega

/-- 1.0 is a neutral factor. -/
theorem mul_one_of_finite {x : Bits32} (hx : finite x = true) : mul x 0x3F800000#32 = x := by
  rw [mul_eq_withSign hx (by decide), show sign 0x3F800000#32 = false from by decide, Bool.bne_false]
  have hone : magnitudeOf (low31 0x3F800000#32) = 2 ^ 149 := by decide
  have hexact := roundBits_exact 298 (low31 x) ((finite_iff x).mp hx).le
  rw [Nat.pow_add, ← Nat.mul_assoc] at hexact
  rw [hone]
  exact (congrArg _ hexact).trans (withSign_self x)

/-- `+0.0` is a neutral summand of a pattern with sign 0. -/
theorem add_zero_of_finite {x : Bits32} (hx : finite x = true) (hs : sign x = false) : add x 0x00000000#32 = x := by
  have hexact : roundBits (magnitudeOf (low31 x)) 149 = low31 x :=
    roundBits_exact 149 (low31 x) ((finite_iff x).mp hx).le
  have hself : withSign false (low31 x) = x := by rw [← hs]; exact withSign_self x
  have hvalue : value x = (magnitudeOf (low31 x) : Int) := by rw [value_eq, hs, signed_false]
  have hzero : value 0x00000000#32 = 0 := by decide
  have hfinite : finite 0x00000000#32 = true := by decide
  by_cases h0 : magnitudeOf (low31 x) = 0
  · have hbits : low31 x = 0 := magnitudeOf_strictMono.injective h0
    rw [hbits] at hself
    simpa [add, hx, hfinite, hs, hzero, hvalue, h0] using hself
  · have hpos : decide ((magnitudeOf (low31 x) : Int) < 0) = false := decide_eq_false (by omega)
    simpa [add, hx, hfinite, hzero, hvalue, h0, hexact, hpos] using hself

end Sys2Proof.Machine.Binary32

namespace Sys2Proof.Machine

open Binary32

variable {P : Params}

/-! ### The pattern of a fraction of `2^24` (R106, R107) -/

theorem toNat_append_eq_add {m n : Nat} (x : BitVec m) (y : BitVec n) :
    (x ++ y).toNat = x.toNat * 2 ^ n + y.toNat := by
  rw [BitVec.toNat_append, ← Nat.shiftLeft_add_eq_or_of_lt y.isLt, Nat.shiftLeft_eq]

/-- The pattern of a positive draw: its significand `m` and scale `k + 102`, with the exact magnitude. -/
theorem exists_toNat_F32 {i : Nat} (h1 : 1 ≤ i) (h2 : i < 2 ^ 24) :
    ∃ k m, k ≤ 23 ∧ 2 ^ 23 ≤ m ∧ m < 2 ^ 24 ∧ m * 2 ^ (k + 102) = i * 2 ^ 125 ∧
      (F32 i).toNat = (k + 102) * 2 ^ 23 + m := by
  have hi : i ≠ 0 := Nat.ne_of_gt h1
  have hlo : 2 ^ Nat.log2 i ≤ i := Nat.log2_self_le hi
  have hhi : i < 2 ^ (Nat.log2 i + 1) := Nat.lt_log2_self
  have hk : Nat.log2 i ≤ 23 := Nat.lt_succ_iff.mp ((Nat.log2_lt hi).mpr h2)
  have hF32 : F32 i = 0#1 ++ BitVec.ofNat 8 (Nat.log2 i + 103) ++
      BitVec.ofNat 23 ((i - 2 ^ Nat.log2 i) * 2 ^ (23 - Nat.log2 i)) := by rw [F32, if_neg hi]
  generalize Nat.log2 i = k at hlo hhi hk hF32
  have hshift : 2 ^ k * 2 ^ (23 - k) = 2 ^ 23 := by rw [← Nat.pow_add]; congr 1; omega
  have hm1 : 2 ^ 23 ≤ i * 2 ^ (23 - k) := by rw [← hshift]; exact Nat.mul_le_mul_right _ hlo
  have hm2 : i * 2 ^ (23 - k) < 2 ^ 24 := by
    calc i * 2 ^ (23 - k) < 2 ^ (k + 1) * 2 ^ (23 - k) := Nat.mul_lt_mul_of_pos_right hhi (Nat.two_pow_pos _)
      _ = 2 ^ 24 := by rw [← Nat.pow_add]; congr 1; omega
  refine ⟨k, i * 2 ^ (23 - k), hk, hm1, hm2, ?_, ?_⟩
  · rw [Nat.mul_assoc, ← Nat.pow_add]; congr 2; omega
  · rw [hF32, Nat.sub_mul, hshift, toNat_append_eq_add, toNat_append_eq_add, BitVec.toNat_ofNat, BitVec.toNat_ofNat,
      BitVec.toNat_ofNat]
    omega

/-- A draw modulo `CHUNKS` is in the domain of `F32` (R105). -/
theorem mod_CHUNKS_lt (x : Nat) : x % CHUNKS < 2 ^ 24 := Nat.mod_lt x (Nat.two_pow_pos 24)

/-- `F32` stays below the pattern of 1.0. -/
theorem toNat_F32_lt {i : Nat} (h : i < 2 ^ 24) : (F32 i).toNat < 0x3F800000 := by
  rcases Nat.eq_zero_or_pos i with rfl | hpos
  · decide
  · obtain ⟨k, m, hk, -, hm, -, e⟩ := exists_toNat_F32 hpos h
    omega

theorem sign_F32 {i : Nat} (h : i < 2 ^ 24) : sign (F32 i) = false := by
  have hlt := toNat_F32_lt h
  rw [sign_eq]
  exact decide_eq_false (by omega)

theorem low31_F32 {i : Nat} (h : i < 2 ^ 24) : low31 (F32 i) = (F32 i).toNat := by
  have hlt := toNat_F32_lt h
  exact Nat.mod_eq_of_lt (by omega)

theorem finite_F32 {i : Nat} (h : i < 2 ^ 24) : finite (F32 i) = true := by
  have hlt := toNat_F32_lt h
  rw [finite_iff, low31_F32 h, infBits]
  omega

/-- `F32 i` is exactly `i / 2^24` (R106). -/
theorem magnitudeOf_F32 {i : Nat} (h : i < 2 ^ 24) : magnitudeOf (low31 (F32 i)) = i * 2 ^ 125 := by
  rcases Nat.eq_zero_or_pos i with rfl | hpos
  · decide
  · obtain ⟨k, m, -, hm1, hm2, hexact, e⟩ := exists_toNat_F32 hpos h
    rw [low31_F32 h, e, magnitudeOf_scale_add (.inr hm1) hm2.le, hexact]

theorem value_F32 {i : Nat} (h : i < 2 ^ 24) : value (F32 i) = (i : Int) * 2 ^ 125 := by
  rw [value_eq, sign_F32 h, magnitudeOf_F32 h, signed_false]
  push_cast; rfl

/-- A positive draw has a normal pattern (R106). -/
theorem expField_F32 {i : Nat} (h1 : 1 ≤ i) (h2 : i < 2 ^ 24) :
    103 ≤ expField (F32 i) ∧ expField (F32 i) ≤ 126 := by
  obtain ⟨k, m, hk, hm1, hm2, -, e⟩ := exists_toNat_F32 h1 h2
  rw [expField_eq, low31_F32 h2, e]
  omega

/-! ### The affine step of RANGEF (R112, R115, R116) -/

/-- The four conditions of R114. -/
theorem legalRangeF_iff (ops : FloatOps) (x y : Bits32) : legalRangeF ops x y = true ↔
    finite x = true ∧ finite y = true ∧ less x y = true ∧ finite (ops.FSUB y x) = true := by
  simp only [legalRangeF, Bool.and_eq_true, and_assoc]

/-- The fraction is below 1.0, so rescaling a finite difference stays finite. -/
theorem finite_mul_F32 {i : Nat} (h : i < 2 ^ 24) {d : Bits32} (hd : finite d = true) :
    finite (mul (F32 i) d) = true := by
  have hone : magnitudeOf (low31 (F32 i)) ≤ 2 ^ 149 := by
    rw [magnitudeOf_F32 h, show 149 = 24 + 125 from rfl, Nat.pow_add]
    exact Nat.mul_le_mul_right _ h.le
  have hle := low31_mul_le (finite_F32 h) hd hone
  rw [finite_iff] at hd ⊢
  exact hle.trans_lt hd

/-- The rescaled fraction of a difference that is not negative is not negative. -/
theorem value_mul_F32_nonneg {i : Nat} (h : i < 2 ^ 24) {d : Bits32} (hd : finite d = true) (hs : sign d = false) :
    0 ≤ value (mul (F32 i) d) := by
  rw [mul_eq_withSign (finite_F32 h) hd, sign_F32 h, hs, bne_self_eq_false, value_withSign _ (roundBits_lt _ _),
    signed_false]
  exact Int.natCast_nonneg _

/-- With legal bounds the rescaled fraction is added to `min` as a number that is not negative (R115). -/
theorem not_nan_and_value_le_affine {x y : Bits32} {i : Nat} (hlegal : legalRangeF FloatOps.ieee x y = true)
    (h : i < 2 ^ 24) :
    isNaN (affine FloatOps.ieee (F32 i) x y) = false ∧ value x ≤ value (affine FloatOps.ieee (F32 i) x y) := by
  obtain ⟨hx, hy, hless, hd⟩ := (legalRangeF_iff _ x y).mp hlegal
  have hp := finite_mul_F32 h hd
  have hnonneg := value_mul_F32_nonneg h hd (sign_sub_of_less hx hy hless)
  exact ⟨isNaN_add_of_finite hp hx, le_value_add hp hx hx (Int.le_add_of_nonneg_left hnonneg)⟩

/-- Over the unit interval the affine step changes nothing (R116). -/
theorem affine_F32_unit {i : Nat} (h : i < 2 ^ 24) :
    affine FloatOps.ieee (F32 i) 0x00000000#32 0x3F800000#32 = F32 i := by
  have hd : sub 0x3F800000#32 0x00000000#32 = 0x3F800000#32 := by decide
  calc affine FloatOps.ieee (F32 i) 0x00000000#32 0x3F800000#32
      = add (mul (F32 i) (sub 0x3F800000#32 0x00000000#32)) 0x00000000#32 := rfl
    _ = F32 i := by rw [hd, mul_one_of_finite (finite_F32 h), add_zero_of_finite (finite_F32 h) (sign_F32 h)]

/-! ### The bounds of RANGE in the two views (R109, R110) -/

/-- Where `min` is below `max`, the wrapped difference is the true one: it is below `2^W` (R109). -/
theorem toNat_sub_of_toInt_lt {a b : Word P.W} (h : a.toInt < b.toInt) :
    ((b - a).toNat : Int) = b.toInt - a.toInt := by
  have ha := BitVec.le_two_mul_toInt (x := a)
  have hb := BitVec.two_mul_toInt_lt (x := b)
  calc ((b - a).toNat : Int) = ((b - a).toNat : Int).bmod (2 ^ P.W) % (2 ^ P.W : Nat) := by
        rw [Int.bmod_emod, Int.emod_eq_of_lt (by omega) (by exact_mod_cast (b - a).isLt)]
    _ = (b.toInt - a.toInt) % (2 ^ P.W : Nat) := by
        rw [← BitVec.toInt_eq_toNat_bmod, BitVec.toInt_sub, Int.bmod_emod]
    _ = b.toInt - a.toInt := Int.emod_eq_of_lt (by omega) (by push_cast; omega)

/-- The legal bounds in hardware terms (R109). -/
theorem toInt_sub_le_MAX_iff (a b : Word P.W) :
    (1 ≤ b.toInt - a.toInt ∧ b.toInt - a.toInt ≤ P.MAX) ↔ a.slt b = true ∧ (b - a).msb = false := by
  have hW := two_pow_W P
  have hmax := MAX_succ P
  rw [BitVec.slt_iff_toInt_lt, BitVec.msb_eq_false_iff_two_mul_lt]
  by_cases hlt : a.toInt < b.toInt
  · have hdiff := toNat_sub_of_toInt_lt hlt
    omega
  · omega

theorem legalRange_iff (a b : Word P.W) :
    legalRange a b = true ↔ 1 ≤ b.toInt - a.toInt ∧ b.toInt - a.toInt ≤ P.MAX := by
  simp only [legalRange, Bool.and_eq_true, decide_eq_true_eq]

/-- A draw below the difference, added to `min`, does not wrap (R110). -/
theorem toInt_add_word {a b : Word P.W} {r : Nat} (hlegal : legalRange a b = true) (hr : r < (b - a).toNat) :
    (a + word P.W r).toInt = a.toInt + r := by
  obtain ⟨h1, h2⟩ := (legalRange_iff a b).mp hlegal
  have hdiff := toNat_sub_of_toInt_lt (a := a) (b := b) (by omega)
  have hW := two_pow_W P
  have hmax := MAX_succ P
  have ha := BitVec.le_two_mul_toInt (x := a)
  have hb := BitVec.two_mul_toInt_lt (x := b)
  have hword : (word P.W r).toNat = r := toNat_word_of_le_MAX (by omega)
  have hint : (word P.W r).toInt = r := by
    rw [BitVec.toInt_eq_toNat_of_lt (by omega), hword]
  rw [BitVec.toInt_add, hint]
  exact Int.bmod_eq_of_le (by push_cast; omega) (by push_cast; omega)

/-! ### The commands on a seeded generator with legal bounds, and with illegal ones -/

theorem exec_nextf_seeded (v : Variant) (a b : Word v.W) (s : State) (hs : (s.inst v).seeded = true) :
    exec (.nextf v a b) s = .next (s.setInst v (sample floatOps CHUNKS .nextf (s.inst v))) := by
  rw [exec_nextf, guarded_legal _ _ hs]

theorem exec_range_legal (v : Variant) (a b : Word v.W) (s : State) (hs : (s.inst v).seeded = true)
    (h1 : 1 ≤ b.toInt - a.toInt) (h2 : b.toInt - a.toInt ≤ v.params.MAX) :
    exec (.range v a b) s = .next (s.setInst v (sample floatOps (b - a).toNat (.range a) (s.inst v))) := by
  rw [exec_range, (legalRange_iff a b).mpr ⟨h1, h2⟩, guarded_legal _ _ hs]
  rfl

theorem exec_range_illegal (v : Variant) (a b : Word v.W) (s : State) (hs : (s.inst v).seeded = true)
    (h : b.toInt - a.toInt < 1 ∨ v.params.MAX < b.toInt - a.toInt) :
    exec (.range v a b) s = .next (s.setInst v ((s.inst v).respond .invalidArgument none)) := by
  have hillegal : legalRange (P := v.params) a b = false := by
    rw [← Bool.not_eq_true, legalRange_iff]
    omega
  rw [exec_range, hillegal, guarded_illegal _ _ hs]

theorem exec_rangef_legal (v : Variant) (a b : Word v.W) (s : State) (hs : (s.inst v).seeded = true)
    (h : legalRangeF floatOps (a.extractLsb' 0 32) (b.extractLsb' 0 32) = true) :
    exec (.rangef v a b) s = .next (s.setInst v
      (sample floatOps CHUNKS (.rangef (a.extractLsb' 0 32) (b.extractLsb' 0 32)) (s.inst v))) := by
  have hlegal : legalRangeF floatOps (floatOperand (P := v.params) a) (floatOperand (P := v.params) b) = true := h
  rw [exec_rangef, hlegal, guarded_legal _ _ hs]
  rfl

theorem exec_rangef_illegal (v : Variant) (a b : Word v.W) (s : State) (hs : (s.inst v).seeded = true)
    (h : legalRangeF floatOps (a.extractLsb' 0 32) (b.extractLsb' 0 32) = false) :
    exec (.rangef v a b) s = .next (s.setInst v ((s.inst v).respond .invalidArgument none)) := by
  have hillegal : legalRangeF floatOps (floatOperand (P := v.params) a) (floatOperand (P := v.params) b) = false := h
  rw [exec_rangef, hillegal, guarded_illegal _ _ hs]

theorem toNat_zextW_le (P : Params) (x : Bits32) : (zextW P x).toNat ≤ x.toNat := by
  rw [zextW, BitVec.toNat_setWidth]
  exact Nat.mod_le _ _

/-! ### Two finishing steps of one loop (R111, R116) -/

/-- Two loops with one divisor from one generator accept the same draw, or neither accepts any; the finishing step and
the float operations only make the result. -/
theorem sample_cases_two (ops : FloatOps) (n : Nat) (fin fin' : Finish P) (g : Inst P) :
    (∃ k, sample ops n fin g = afterSample g k (fin.result ops (drawn g k % n)) ∧
      sample ops n fin' g = afterSample g k (fin'.result ops (drawn g k % n))) ∨
    (sample ops n fin g = { afterExtracts (loopBound P) g with job := some ⟨n, fin⟩ } ∧
      sample ops n fin' g = { afterExtracts (loopBound P) g with job := some ⟨n, fin'⟩ }) := by
  obtain ⟨k, hk, e⟩ | ⟨hrej, e⟩ := sample_cases ops n fin g
  · exact .inl ⟨k, e, sample_firstAccepted ops n fin' g k hk⟩
  · exact .inr ⟨e, sample_noneAccepted ops n fin' g hrej⟩

/-- The same generator and phase: all but the loop's finishing step and the responses. -/
def Inst.SameGenerator (g g' : Inst P) : Prop :=
  g.words = g'.words ∧ g.index = g'.index ∧ g.seeded = g'.seeded ∧ g.phase = g'.phase ∧
    g.twists = g'.twists ∧ g.extracts = g'.extracts

theorem sample_sameGenerator (ops : FloatOps) (n : Nat) (fin fin' : Finish P) (g : Inst P) :
    (sample ops n fin g).SameGenerator (sample ops n fin' g) := by
  obtain ⟨k, e, e'⟩ | ⟨e, e'⟩ := sample_cases_two ops n fin fin' g
  · rw [e, e']; exact ⟨rfl, rfl, rfl, rfl, rfl, rfl⟩
  · rw [e, e']; exact ⟨rfl, rfl, rfl, rfl, rfl, rfl⟩

/-- The response of RANGE is the response of NEXT, shifted by `min` (R111). -/
theorem sample_next_responses_iff (ops : FloatOps) (n : Nat) (a x : Word P.W) (g : Inst P) :
    (sample ops n .next g).responses = ⟨.ok, some x⟩ :: g.responses ↔
      (sample ops n (.range a) g).responses = ⟨.ok, some (a + x)⟩ :: g.responses := by
  obtain ⟨k, e, e'⟩ | ⟨e, e'⟩ := sample_cases_two ops n .next (.range a) g
  · rw [e, e']
    simp [afterSample, Finish.result]
  · rw [e, e']
    simp -- both still in SAMPLING: no response

end Sys2Proof.Machine

namespace Sys2Proof.Derived

open Sys2Proof.Machine

/-- Settles O16: where `min` is below `max` the wrapped difference is the true one, so its top bit is clear exactly
when it is at most `MAX`; bounds that fail the test are refused. -/
theorem rangeRefusesIllegalBounds : Obligations.RangeRefusesIllegalBounds := fun v a b s =>
  ⟨toInt_sub_le_MAX_iff (P := v.params) a b, fun h => toNat_sub_of_toInt_lt (P := v.params) (by omega),
    exec_range_illegal v a b s⟩

/-- Settles O39: once seeded, NEXTF is its sampling loop, which ends at the first accepted draw. -/
theorem nextfReturnsTheFirstAcceptedDraw : Obligations.NextfReturnsTheFirstAcceptedDraw := by
  intro v a b s k hs hk
  rw [exec_nextf_seeded v a b s hs, sample_firstAccepted floatOps CHUNKS .nextf _ k hk]
  rfl

/-- Settles O40: the facts of `F32`, each its own lemma. -/
theorem f32IsExact : Obligations.F32IsExact := fun _ h =>
  ⟨finite_F32 h, sign_F32 h, value_F32 h, fun h1 => expField_F32 h1 h⟩

/-- Settles O41: the result is the pattern of a draw modulo `2^24`, which is below the pattern of 1.0; a word holds
its 32 bits. -/
theorem nextfResultIsBelowOne : Obligations.NextfResultIsBelowOne := by
  intro v a b x s t h hresult
  rw [exec_nextf] at h
  cases h
  rw [State.inst_setInst] at hresult
  obtain ⟨-, k, -, rfl⟩ := guarded_sample_result hresult
  have hlt := toNat_F32_lt (mod_CHUNKS_lt (drawn (s.inst v) k))
  exact Nat.le_of_lt_succ ((toNat_zextW_le _ _).trans_lt hlt)

/-- Settles O42: once seeded, RANGE with legal bounds is its sampling loop. -/
theorem rangeReturnsMinPlusTheFirstAcceptedDraw : Obligations.RangeReturnsMinPlusTheFirstAcceptedDraw := by
  intro v a b s k hs h1 h2 hk
  rw [exec_range_legal v a b s hs h1 h2, sample_firstAccepted floatOps _ (.range a) _ k hk]
  rfl

/-- Settles O43: the result is `min` plus a draw below the difference, which does not wrap. -/
theorem rangeResultIsWithinTheBounds : Obligations.RangeResultIsWithinTheBounds := by
  intro v a b x s t h hresult
  rw [exec_range] at h
  cases h
  rw [State.inst_setInst] at hresult
  obtain ⟨hlegal, k, -, rfl⟩ := guarded_sample_result hresult
  obtain ⟨h1, h2⟩ := (legalRange_iff a b).mp hlegal
  have hdiff : ((b - a).toNat : Int) = b.toInt - a.toInt := toNat_sub_of_toInt_lt (P := v.params) (by omega)
  have hlt : drawn (s.inst v) k % (b - a).toNat < (b - a).toNat := Nat.mod_lt _ (by omega)
  have hx := toInt_add_word hlegal hlt
  simp only [Finish.result, uval, rangeDivisor]
  rw [hx]
  omega

/-- Settles O44: the loops of RANGE and NEXT have the same divisor and differ in the finishing step only. -/
theorem rangeIsNextShifted : Obligations.RangeIsNextShifted := by
  intro v a b c s hs h1 h2
  obtain ⟨hn1, hn2⟩ : LegalN v.params (b - a).toNat := legalN_rangeDivisor ((legalRange_iff a b).mpr ⟨h1, h2⟩)
  refine ⟨_, _, exec_next_legal v (b - a) c s hs hn1 hn2, exec_range_legal v a b s hs h1 h2, ?_⟩
  rw [State.inst_setInst, State.inst_setInst]
  obtain ⟨hwords, hindex, hseeded, hphase, htwists, hextracts⟩ :=
    sample_sameGenerator floatOps (b - a).toNat (.range a) .next (s.inst v)
  exact ⟨hwords, hindex, hseeded, hphase, htwists, hextracts, fun x => sample_next_responses_iff floatOps _ a x _⟩

/-- Settles O45: once seeded, RANGEF with legal bounds is its sampling loop, whose finishing step is the affine one. -/
theorem rangefReturnsTheRescaledDraw : Obligations.RangefReturnsTheRescaledDraw := by
  intro v a b s k hs lo hi hlo hhi hless hdiff hk
  rw [exec_rangef_legal v a b s hs ((legalRangeF_iff _ _ _).mpr ⟨hlo, hhi, hless, hdiff⟩),
    sample_firstAccepted floatOps CHUNKS _ _ k hk]
  rfl

/-- Settles O46: the order of signed 31-bit numbers is that of the signed magnitudes; `less` asks for no NaN. -/
theorem floatOrderIsTheOrderOfValues : Obligations.FloatOrderIsTheOrderOfValues := by
  refine fun x y => ⟨Binary32.less_iff_value_lt, fun h => ?_⟩
  obtain h | h := h <;> simp [Binary32.less, h]

/-- Settles O47: rounding a magnitude takes the nearer of the two patterns around it, and the sign is the sum's. -/
theorem floatSumIsNearest : Obligations.FloatSumIsNearest := fun _ _ z hx hy _ hsum =>
  Binary32.value_add_nearest hx hy hsum z

/-- Settles O48: the rescaled fraction is finite and not negative, and rounding keeps the order. -/
theorem rangefResultIsNotBelowMin : Obligations.RangefResultIsNotBelowMin := fun _ _ _ hlegal h =>
  not_nan_and_value_le_affine hlegal h

/-- Settles O49: 0.0 and 1.0 are legal bounds, both commands end at the same draw, and the affine step over the unit
interval changes nothing. -/
theorem rangefOverTheUnitIntervalIsNextf : Obligations.RangefOverTheUnitIntervalIsNextf := by
  intro v a b c d s k hs ha hb hk
  have hlegal : legalRangeF floatOps 0x00000000#32 0x3F800000#32 = true := by decide
  have hdraw := affine_F32_unit (mod_CHUNKS_lt (drawn (s.inst v) k))
  rw [exec_nextf_seeded v c d s hs, exec_rangef_legal v a b s hs (by rw [ha, hb]; exact hlegal), ha, hb,
    sample_firstAccepted floatOps CHUNKS _ _ k hk, sample_firstAccepted floatOps CHUNKS _ _ k hk]
  simp only [Finish.result, floatOps, hdraw]

/-- Settles O50: the loops of RANGEF and NEXTF have the same divisor and differ in the finishing step only. -/
theorem rangefConsumesWhatNextfConsumes : Obligations.RangefConsumesWhatNextfConsumes := by
  intro v a b c d s hs hlegal
  refine ⟨_, _, exec_nextf_seeded v c d s hs, exec_rangef_legal v a b s hs hlegal, ?_⟩
  rw [State.inst_setInst, State.inst_setInst]
  obtain ⟨hwords, hindex, -, hphase, htwists, hextracts⟩ :=
    sample_sameGenerator floatOps CHUNKS (.rangef (a.extractLsb' 0 32) (b.extractLsb' 0 32)) .nextf (s.inst v)
  exact ⟨hwords, hindex, hphase, htwists, hextracts⟩

/-- Settles O17: each condition makes one of the four tests of R114 fail. -/
theorem rangefRefusesIllegalBounds : Obligations.RangefRefusesIllegalBounds := by
  intro v a b s hs hcond
  refine exec_rangef_illegal v a b s hs ?_
  rw [← Bool.not_eq_true, legalRangeF_iff]
  rintro ⟨hx, hy, hless, hd⟩
  obtain h | h | h | h := hcond
  · simp [h] at hx
  · simp [h] at hy
  · simp [h] at hless
  · exact Bool.false_ne_true (h.symm.trans hd)

end Sys2Proof.Derived

/-! PROOFS. The statements about the exceptions (60_exceptions.md): which fault a command raises (R122, R123, R125,
R128), that a fault leaves its response alone (R124), and that an idle machine holds its state (R135). -/

namespace Sys2Proof.Machine

variable {P : Params}

/-! ### The fault of a command (R122, R123, R125, R128) -/

/-- The fault that a command raises on a generator, if any. -/
def commandFault : (i : Instr) → Inst i.variant.params → Option Status
  | .seed _ _ _, _ => none
  | .extract _ _ _, g => faultOf g true
  | .next _ a _, g => faultOf g (legalDivisor a)
  | .nextf _ _ _, g => faultOf g true
  | .range _ a b, g => faultOf g (legalRange a b)
  | .rangef _ a b, g => faultOf g (legalRangeF floatOps (floatOperand a) (floatOperand b))
  | .reserved000 _ _ _, _ => some .illegalCommand
  | .reserved111 _ _ _, _ => some .illegalCommand

theorem faultOf_eq_unseededUse_iff (g : Inst P) (legal : Bool) :
    faultOf g legal = some .unseededUse ↔ g.seeded = false := by
  cases hs : g.seeded <;> cases legal <;> simp [faultOf, hs]

theorem faultOf_eq_none {g : Inst P} {legal : Bool} (hs : g.seeded = true) (hl : legal = true) :
    faultOf g legal = none := by
  simp [faultOf, hs, hl]

theorem commandFault_of_unseeded {i : Instr} {g : Inst i.variant.params} (hi : i.isCommand = true)
    (hop : i.op ≠ .seed) (hs : g.seeded = false) : commandFault i g = some .unseededUse := by
  cases i with
  | seed => exact absurd rfl hop
  | extract | next | nextf | range | rangef => exact (faultOf_eq_unseededUse_iff g _).mpr hs
  | reserved000 | reserved111 => nomatch hi

theorem commandFault_ne_unseededUse {i : Instr} {g : Inst i.variant.params}
    (h : i.op = .seed ∨ g.seeded = true) : commandFault i g ≠ some .unseededUse := by
  cases i with
  | seed => exact nofun
  | extract | next | nextf | range | rangef =>
    have hs : g.seeded = true := h.resolve_left nofun
    exact fun hf => Bool.false_ne_true (((faultOf_eq_unseededUse_iff g _).mp hf).symm.trans hs)
  | reserved000 | reserved111 => exact nofun

/-! ### What a command with that fault, or without one, leaves (R30, R101, R124) -/

/-- The generators that a command can leave of `g`, by the fault it raises: with one the response alone is new,
without one no response but an OK one is. -/
inductive Answers (g : Inst P) : Option Status → Inst P → Prop where
  /-- a fault (R124) -/
  | faulted (st : Status) : Answers g (some st) (g.respond st none)
  /-- a sampling command still in SAMPLING (R101) -/
  | pending {g' : Inst P} (h : g'.responses = g.responses) : Answers g none g'
  /-- a command that has completed (R30) -/
  | completed {g' : Inst P} (x : Option (Word P.W)) (h : g'.responses = ⟨.ok, x⟩ :: g.responses) :
    Answers g none g'

theorem answers_extractBody (g : Inst P) : Answers g none (extractBody g) :=
  .completed _ (congrArg _ (extract_responses g))

theorem answers_sample (ops : FloatOps) (n : Nat) (fin : Finish P) (g : Inst P) :
    Answers g none (sample ops n fin g) := by
  obtain ⟨k, -, e⟩ | ⟨-, e⟩ := sample_cases ops n fin g
  · rw [e]
    exact .completed _ (congrArg _ (afterExtracts_responses g (k + 1)))
  · rw [e]
    exact .pending (afterExtracts_responses g _)

/-- A guarded body that never faults itself has the faults of its guard. -/
theorem answers_guarded (legal : Bool) {body : Inst P → Inst P} {g : Inst P} (h : Answers g none (body g)) :
    Answers g (faultOf g legal) (guarded legal body g) := by
  unfold guarded
  cases faultOf g legal with
  | none => exact h
  | some st => exact .faulted st

theorem answers_command (i : Instr) (g : Inst i.variant.params) :
    Answers g (commandFault i g) (command i g) := by
  cases i with
  | seed => exact .completed none rfl
  | extract => exact answers_guarded _ (answers_extractBody g)
  | next | nextf | range | rangef => exact answers_guarded _ (answers_sample _ _ _ g)
  | reserved000 | reserved111 => exact .faulted _

theorem Answers.eq_respond {g g' : Inst P} {st : Status} (h : Answers g (some st) g') :
    g' = g.respond st none := by
  cases h
  rfl

/-- A command that raises a fault is that fault's response (R124). -/
theorem command_of_commandFault {i : Instr} {g : Inst i.variant.params} {st : Status}
    (h : commandFault i g = some st) : command i g = g.respond st none :=
  Answers.eq_respond (h ▸ answers_command i g)

/-- Conversely, only the fault that was raised makes a response that is not OK. -/
theorem Answers.fault_eq_some {g g' : Inst P} {f : Option Status} (h : Answers g f g') {r : Response P}
    (hr : g'.responses = r :: g.responses) (hst : r.status ≠ .ok) : f = some r.status ∧ r.result = none := by
  cases h with
  | faulted st =>
    obtain ⟨rfl, -⟩ := List.cons.inj hr
    exact ⟨rfl, rfl⟩
  | pending h => exact absurd (h.symm.trans hr).symm (List.cons_ne_self _ _)
  | completed x h =>
    obtain ⟨rfl, -⟩ := List.cons.inj (h.symm.trans hr)
    exact absurd rfl hst

theorem Answers.faultFree {g g' : Inst P} (h : Answers g none g') (hg : g.faultFree) : g'.faultFree := by
  cases h with
  | pending h => rwa [Inst.faultFree, h]
  | completed x h =>
    rw [Inst.faultFree, h]
    exact List.forall_mem_cons.mpr ⟨rfl, hg⟩

/-- A run without faults stays one under a command that raises none (92 D8). -/
theorem exec_faultFree {i : Instr} {s t : State} (h : exec i s = .next t)
    (hf : commandFault i (s.inst i.variant) = none) (hs : (s.inst i.variant).faultFree) :
    (t.inst i.variant).faultFree := by
  rw [exec_eq] at h
  cases h
  rw [State.inst_onInst]
  exact Answers.faultFree (hf ▸ answers_command i _) hs

/-! ### Nothing presented (R135) -/

theorem Inst.wait_of_idle {g : Inst P} (h : g.phase = .idle) : g.wait = g := by
  rw [phase_idle_iff] at h
  simp [Inst.wait, sampleIter, h]

theorem State.onInst_wait_of_idle {s : State} {v : Variant} (h : (s.inst v).phase = .idle) :
    s.onInst v Inst.wait = s := by
  rw [State.onInst, Inst.wait_of_idle h, State.setInst_inst]

/-- The step with nothing presented: both generators wait. -/
theorem step_nothing (s : State) (hc : s.caller = []) :
    step s = .next ((s.onInst .mt32 Inst.wait).onInst .mt64 Inst.wait) := by
  rw [step, hc]
  rfl

end Sys2Proof.Machine

namespace Sys2Proof.Exceptions

open Sys2Proof.Machine

/-- Settles O13: UnseededUse is the fault of exactly the five reading commands on an unseeded generator, and a
response with that status comes from no other fault. -/
theorem unseededReadingCommandsFault : Obligations.UnseededReadingCommandsFault := by
  refine fun i s => ⟨fun hi hop hs => ?_, fun h => ⟨_, exec_eq i s, fun r hr hst => ?_⟩⟩
  · rw [exec_eq, State.onInst, command_of_commandFault (commandFault_of_unseeded hi hop hs)]
  · rw [State.inst_onInst] at hr
    obtain ⟨hf, -⟩ := (answers_command i _).fault_eq_some hr (by rw [hst]; decide)
    exact commandFault_ne_unseededUse h (hst ▸ hf)

/-- Settles O18: a response that is not OK tells which fault was raised, and the command is that fault's response. -/
theorem faultsChangeNothingButTheResponse : Obligations.FaultsChangeNothingButTheResponse := by
  intro i s t r h hr hst
  rw [exec_eq] at h
  cases h
  rw [State.inst_onInst] at hr
  obtain ⟨hf, hresult⟩ := (answers_command i _).fault_eq_some hr hst
  exact ⟨hresult, by rw [State.onInst, command_of_commandFault hf]⟩

/-- Settles O19: none of these commands raises a fault. -/
theorem legalCommandsOnASeededInstanceDoNotFault : Obligations.LegalCommandsOnASeededInstanceDoNotFault := by
  intro v i s t a b hs hi hfree h
  obtain rfl | rfl | rfl | ⟨rfl, h1, h2⟩ | ⟨rfl, h1, h2⟩ | ⟨rfl, hlegal⟩ := hi
  · exact exec_faultFree h rfl hfree
  · exact exec_faultFree h (faultOf_eq_none hs rfl) hfree
  · exact exec_faultFree h (faultOf_eq_none hs rfl) hfree
  · exact exec_faultFree h (faultOf_eq_none hs ((legalDivisor_iff a).mpr ⟨h1, h2⟩)) hfree
  · exact exec_faultFree h (faultOf_eq_none hs ((legalRange_iff a b).mpr ⟨h1, h2⟩)) hfree
  · exact exec_faultFree h (faultOf_eq_none hs hlegal) hfree

/-- Settles O8: with nothing presented both generators wait, and an idle one holds its state. -/
theorem idleMachineHoldsItsState : Obligations.IdleMachineHoldsItsState := by
  intro s hc hidle
  rw [step_nothing s hc, State.onInst_wait_of_idle (hidle .mt32), State.onInst_wait_of_idle (hidle .mt64)]

/-- Settles O14: the equations of the two reserved codes. -/
theorem reservedCodesFaultInEveryState : Obligations.ReservedCodesFaultInEveryState := fun v a b s =>
  ⟨exec_reserved000 v a b s, exec_reserved111 v a b s⟩

end Sys2Proof.Exceptions

/-! PROOFS. The statements about the command port and the hazards (70_reset_and_hazards.md): a command presented to a
busy generator waits (R146), and a run ends when its last command has responded (R145). -/

namespace Sys2Proof.Machine

variable {P : Params}

/-! ### One iteration while a command waits (R103, R146) -/

/-- A loop in progress makes one extraction: an accepted word ends the loop, a rejected one does not (R98). -/
theorem Inst.wait_of_sampling {g : Inst P} (h : g.phase = .sampling) :
    (∃ x, g.wait = afterSample g 0 x) ∨ g.wait = (extract g).2 := by
  obtain ⟨hj, -⟩ | ⟨j, -, -, e⟩ | ⟨j, -, -, e⟩ := sampleIter_cases floatOps g
  · exact nomatch h.symm.trans ((phase_idle_iff g).mpr hj)
  · exact .inl ⟨_, e⟩
  · exact .inr e

theorem extract_phase (g : Inst P) : (extract g).2.phase = g.phase := by
  rw [Inst.phase, extract_job, Inst.phase]

/-! ### A generator that never becomes idle again (R101) -/

/-- A loop is in progress whose stream has no accepted word. -/
def Inst.NeverEnds (g : Inst P) : Prop := ∃ j, g.job = some j ∧ ∀ k, limit P j.n ≤ drawn g k

theorem Inst.NeverEnds.busy {g : Inst P} (h : g.NeverEnds) : g.job.isSome = true := by
  obtain ⟨j, hj, -⟩ := h
  rw [hj, Option.isSome_some]

theorem Inst.NeverEnds.wait_eq {g : Inst P} (h : g.NeverEnds) : g.wait = (extract g).2 := by
  obtain ⟨j, hj, hrej⟩ := h
  exact sampleIter_reject floatOps g j hj (hrej 0)

theorem Inst.NeverEnds.wait {g : Inst P} (h : g.NeverEnds) : g.wait.NeverEnds := by
  rw [h.wait_eq]
  obtain ⟨j, hj, hrej⟩ := h
  exact ⟨j, by rw [extract_job, hj], fun k => by rw [← drawn_succ]; exact hrej (k + 1)⟩

theorem Inst.NeverEnds.wait_responses {g : Inst P} (h : g.NeverEnds) : g.wait.responses = g.responses := by
  rw [h.wait_eq, extract_responses]

/-! ### A command on an idle generator responds, or never ends (R101, R145) -/

/-- The generators that a command can leave of an idle `g`. -/
inductive Finishes (g : Inst P) : Inst P → Prop where
  /-- the command has responded -/
  | responded {g' : Inst P} (r : Response P) (hj : g'.job = none) (hr : g'.responses = r :: g.responses) :
    Finishes g g'
  /-- the command never responds -/
  | neverEnds {g' : Inst P} (h : g'.NeverEnds) (hr : g'.responses = g.responses) : Finishes g g'

theorem finishes_respond {g : Inst P} (h : g.job = none) (st : Status) (x : Option (Word P.W)) :
    Finishes g (g.respond st x) :=
  .responded _ h rfl

theorem finishes_extractBody {g : Inst P} (h : g.job = none) : Finishes g (extractBody g) :=
  .responded _ ((extract_job g).trans h) (congrArg _ (extract_responses g))

theorem finishes_sample (ops : FloatOps) (n : Nat) (fin : Finish P) (g : Inst P) :
    Finishes g (sample ops n fin g) := by
  obtain ⟨k, -, e⟩ | ⟨hrej, e⟩ := sample_cases ops n fin g
  · rw [e]
    exact .responded _ rfl (congrArg _ (afterExtracts_responses g (k + 1)))
  · rw [e]
    refine .neverEnds ⟨⟨n, fin⟩, rfl, fun k => ?_⟩ (afterExtracts_responses g _)
    rw [drawn_withJob, drawn_afterExtracts]
    exact hrej _

theorem finishes_guarded (legal : Bool) {body : Inst P → Inst P} {g : Inst P} (h : g.job = none)
    (hbody : Finishes g (body g)) : Finishes g (guarded legal body g) := by
  obtain ⟨-, e⟩ | ⟨-, -, e⟩ | ⟨-, -, e⟩ := guarded_cases legal body g
  · rw [e]; exact finishes_respond h _ _
  · rw [e]; exact finishes_respond h _ _
  · rw [e]; exact hbody

theorem finishes_command (i : Instr) {g : Inst i.variant.params} (h : g.job = none) :
    Finishes g (command i g) := by
  cases i with
  | seed v a b => exact .responded ⟨.ok, none⟩ h rfl
  | extract => exact finishes_guarded _ h (finishes_extractBody h)
  | next | nextf | range | rangef => exact finishes_guarded _ h (finishes_sample _ _ _ g)
  | reserved000 | reserved111 => exact finishes_respond h _ _

/-- The same of a command whose variant is known by an equation, as a decoded one's is. -/
theorem finishes_onInst_command {i : Instr} {v : Variant} (hv : i.variant = v) {s : State}
    (h : (s.inst v).job = none) :
    Finishes (s.inst v) ((s.onInst i.variant (command i)).inst v) := by
  subst hv
  rw [State.inst_onInst]
  exact finishes_command i h

/-! ### Runs, as `execAll` and as steps (R145, R146) -/

/-- A run on a busy generator presents nothing. -/
theorem execAll_of_busy {v : Variant} {is : List Instr} (hv : ∀ i ∈ is, i.variant = v) {s : State}
    (h : (s.inst v).job.isSome = true) : execAll is s = s := by
  cases is with
  | nil => rfl
  | cons i rest =>
    obtain ⟨rfl, -⟩ := List.forall_mem_cons.mp hv
    exact execAll_cons_busy i rest s h

/-- Commands do not read what the caller will present. -/
theorem execAll_taken (is : List Instr) (s : State) (rest : List Event) :
    execAll is (s.taken rest) = (execAll is s).taken rest := by
  induction is generalizing s with
  | nil => rfl
  | cons i is ih =>
    cases hj : (s.inst i.variant).job with
    | none =>
      rw [execAll_cons_idle i is s hj, execAll_cons_idle i is _ (by rw [State.inst_taken, hj]),
        State.onInst_taken, ih]
    | some j =>
      rw [execAll_cons_busy i is s (by rw [hj]; rfl),
        execAll_cons_busy i is _ (by rw [State.inst_taken, hj]; rfl)]

theorem variant_of_mem_map_decode {v : Variant} (cmds : List (CommandWord v)) :
    ∀ i ∈ cmds.map (decode v), i.variant = v := by
  simp only [List.forall_mem_map, decode_variant, implies_true]

/-- A busy generator only waits, whether its own commands or nothing is presented. -/
theorem step_of_busy {v : Variant} {cmds : List (CommandWord v)} {s : State}
    (hc : s.caller = cmds.map (.command v)) (h : (s.inst v).job.isSome = true) :
    ∃ t, step s = .next t ∧ t.inst v = (s.inst v).wait ∧ t.caller = s.caller := by
  cases cmds with
  | nil => exact ⟨_, step_nothing s hc, by cases v <;> rfl, by simp⟩
  | cons cmd rest => exact ⟨_, step_waits s v cmd _ hc h, by simp, by simp⟩

/-- A generator that never becomes idle again adds no response in any number of steps. -/
theorem stepAll_responses_of_neverEnds {v : Variant} {cmds : List (CommandWord v)} (m : Nat) {s : State}
    (hc : s.caller = cmds.map (.command v)) (h : (s.inst v).NeverEnds) :
    ((stepAll m s).inst v).responses = (s.inst v).responses := by
  induction m generalizing s with
  | zero => rfl
  | succ m ih =>
    obtain ⟨t, hstep, hinst, hcaller⟩ := step_of_busy hc h.busy
    rw [stepAll_succ m s t hstep, ih (hcaller.trans hc) (by rw [hinst]; exact h.wait), hinst, h.wait_responses]

/-- Every command of a run has responded, each in one step. -/
structure RunEnds (v : Variant) (cmds : List (CommandWord v)) (s : State) : Prop where
  idle : ((execAll (cmds.map (decode v)) s).inst v).job = none
  steps : stepAll cmds.length s = (execAll (cmds.map (decode v)) s).taken []
  responded : ((execAll (cmds.map (decode v)) s).inst v).responses.length =
    (s.inst v).responses.length + cmds.length

/-- A command of a run never responds, so no number of steps adds as many responses as there are commands. -/
structure RunNeverEnds (v : Variant) (cmds : List (CommandWord v)) (s : State) : Prop where
  busy : ((execAll (cmds.map (decode v)) s).inst v).job.isSome = true
  responses_lt (m : Nat) :
    ((stepAll m s).inst v).responses.length < (s.inst v).responses.length + cmds.length

/-- The step that takes the first command of a run, and what is left to run after it. -/
theorem step_of_run_cons {v : Variant} {cmd : CommandWord v} {rest : List (CommandWord v)} {s : State}
    (hidle : (s.inst v).job = none) (hc : s.caller = (cmd :: rest).map (.command v)) :
    ∃ t, step s = .next t ∧ t.caller = rest.map (.command v) ∧ Finishes (s.inst v) (t.inst v) ∧
      execAll ((cmd :: rest).map (decode v)) s = (execAll (rest.map (decode v)) t).taken s.caller := by
  let u := s.onInst (decode v cmd).variant (command (decode v cmd))
  have hu : u.taken s.caller = u := by rw [← State.caller_onInst s, State.taken_caller]
  refine ⟨u.taken (rest.map (.command v)), ?_, State.caller_taken u _, ?_, ?_⟩
  · rw [step_command s v cmd _ hc hidle, exec_eq, State.onInst_taken]
  · rw [State.inst_taken]
    exact finishes_onInst_command (decode_variant v cmd) hidle
  · rw [← execAll_taken, State.taken_taken, hu]
    exact execAll_cons_idle _ _ s (by rw [decode_variant]; exact hidle)

/-- A bound on the responses holds of every number of steps if it holds now and after the first step. -/
theorem stepAll_responses_lt {v : Variant} {s t : State} {bound : Nat} (hstep : step s = .next t)
    (hs : (s.inst v).responses.length < bound)
    (ht : ∀ m, ((stepAll m t).inst v).responses.length < bound) (m : Nat) :
    ((stepAll m s).inst v).responses.length < bound := by
  cases m with
  | zero => exact hs
  | succ m => rw [stepAll_succ m s t hstep]; exact ht m

/-- Everything a run of presented commands can do on an idle generator. -/
theorem runEnds_or_runNeverEnds {v : Variant} {cmds : List (CommandWord v)} {s : State}
    (hidle : (s.inst v).job = none) (hc : s.caller = cmds.map (.command v)) :
    RunEnds v cmds s ∨ RunNeverEnds v cmds s := by
  induction cmds generalizing s with
  | nil => exact .inl ⟨hidle, congrArg s.taken hc, rfl⟩
  | cons cmd rest ih =>
    obtain ⟨t, hstep, hct, hfin, hexec⟩ := step_of_run_cons hidle hc
    have hpos : (s.inst v).responses.length < (s.inst v).responses.length + (cmd :: rest).length :=
      Nat.lt_add_of_pos_right (Nat.succ_pos _)
    cases hfin with
    | responded r hj hr =>
      have hlen : (t.inst v).responses.length + rest.length =
          (s.inst v).responses.length + (cmd :: rest).length := by
        rw [hr, List.length_cons, List.length_cons]
        omega
      obtain ⟨hidle', hsteps, hresp⟩ | ⟨hbusy, hlt⟩ := ih hj hct
      · refine .inl ⟨?_, ?_, ?_⟩
        · rw [hexec, State.inst_taken, hidle']
        · rw [List.length_cons, stepAll_succ _ s t hstep, hsteps, hexec, State.taken_taken]
        · rw [hexec, State.inst_taken, hresp, hlen]
      · refine .inr ⟨by rw [hexec, State.inst_taken, hbusy], stepAll_responses_lt hstep hpos fun m => ?_⟩
        rw [← hlen]
        exact hlt m
    | neverEnds h hr =>
      refine .inr ⟨?_, stepAll_responses_lt hstep hpos fun m => ?_⟩
      · rw [hexec, State.inst_taken, execAll_of_busy (variant_of_mem_map_decode rest) h.busy, h.busy]
      · rw [stepAll_responses_of_neverEnds m hct h, hr]
        exact hpos

theorem RunEnds.runOutcome_eq {v : Variant} {cmds : List (CommandWord v)} {s : State}
    (h : RunEnds v cmds s) :
    runOutcome v cmds s = some ((stepAll cmds.length s).inst v).outcome := by
  rw [h.steps, State.inst_taken]
  simp [runOutcome, Inst.busy, h.idle]

theorem RunNeverEnds.runOutcome_eq {v : Variant} {cmds : List (CommandWord v)} {s : State}
    (h : RunNeverEnds v cmds s) : runOutcome v cmds s = none := by
  simp [runOutcome, Inst.busy, h.busy]

end Sys2Proof.Machine

namespace Sys2Proof.ResetAndHazards

open Sys2Proof.Machine

/-- Settles O7: the step is one iteration of the generator's loop and touches nothing else. -/
theorem commandWaitsWhileTheInstanceIsBusy : Obligations.CommandWaitsWhileTheInstanceIsBusy := by
  intro s v cmd rest hc hsampling
  refine ⟨_, step_waits s v cmd rest hc ((busy_iff _).mpr hsampling), State.caller_onInst _ _ _,
    fun v' hv => State.inst_onInst_of_ne s _ hv, ?_⟩
  rw [State.inst_onInst]
  obtain ⟨x, e⟩ | e := Inst.wait_of_sampling hsampling
  · rw [e]
    exact ⟨afterExtracts_extracts _ 1, afterExtracts_seeded _ 1,
      .inr ⟨rfl, x, congrArg _ (afterExtracts_responses _ 1)⟩⟩
  · rw [e]
    exact ⟨extract_extracts _, extract_seeded _,
      .inl ⟨(extract_phase _).trans hsampling, extract_responses _⟩⟩

/-- Settles O56: either every command of the run responds, and the steps leave what `execAll` does, or one never
does, and then there is no outcome and the steps never add all the responses. -/
theorem runsEndWhenEveryCommandHasResponded : Obligations.RunsEndWhenEveryCommandHasResponded := by
  intro v cmds s hidle hc
  obtain hends | hnever := runEnds_or_runNeverEnds ((phase_idle_iff _).mp hidle) hc
  · have hlen : ((stepAll cmds.length s).inst v).responses.length =
        (s.inst v).responses.length + cmds.length := by
      rw [hends.steps, State.inst_taken, hends.responded]
    rw [hends.runOutcome_eq]
    refine ⟨iff_of_true rfl ⟨cmds.length, hlen⟩, fun o ho => ?_⟩
    obtain rfl := Option.some.inj ho
    refine ⟨?_, ?_, rfl, (List.length_reverse ..).trans hlen⟩
    · rw [hends.steps, State.caller_taken]
    · rw [hends.steps, State.inst_taken, phase_idle_iff, hends.idle]
  · rw [hnever.runOutcome_eq]
    exact ⟨iff_of_false (by simp) fun ⟨m, hm⟩ => (hnever.responses_lt m).ne hm, nofun⟩

end Sys2Proof.ResetAndHazards

/-! PROOFS. The statement about the test vectors (95_test_vectors.md): the command words written out in V11. -/

namespace Sys2Proof.TestVectors

/-- Settles O4: each written word is the encoding of the command it stands for, evaluated, and a command is what its
own word decodes to. -/
theorem writtenOutCommandWordsDecode : Obligations.WrittenOutCommandWordsDecode := by
  and_intros <;> exact Eq.symm (eq_decode_of_encode_toNat_eq rfl (by decide))

end Sys2Proof.TestVectors
